-- ==== Sys2Proof/Word.lean ====
section
/-! DEFINITION. The word types of TGA-RPD (spec 00_scope.md R7: every quantity of the block is unsigned). -/

namespace Sys2Proof

/-- A byte of `IN`, `PAL` or `OUT`. -/
abbrev Byte := BitVec 8

end Sys2Proof
end

