-- ==== Sys2Proof/Config.lean ====
section
/-! DEFINITION. What an implementation of TGA-RPD fixes (00_scope.md R6) and the free values (93_implementation_defined.md). -/

namespace Sys2Proof

/-- The OPEN parameters of 00_scope.md R6. The spec says that a model takes each of them as an argument: `State` carries one
value of this record, no step changes it, so a statement about every state is a statement about every implementation. -/
structure Params where
  /-- `IN_AW`: width in bits of an address of `IN`; default 32. -/
  inAW : Nat := 32
  /-- `OUT_CAP`: how many pixels `OUT` can hold; default `2^32 - 1`. -/
  outCap : Nat := 4294967295
  /-- `REG_BASE`: bus address of register index 0. The spec gives no default and no rule depends on it. -/
  regBase : Nat := 0
  deriving DecidableEq, Repr

/-- The default parameters, which the vectors of 95_test_vectors.md assume. DESIGN CHOICE for `regBase` (log entry 3). -/
def Params.default : Params where
  inAW := 32
  outCap := 4294967295
  regBase := 0

/-- `PAL_BYTES`: the size of the palette RAM, fixed by 00_scope.md R6 and 10_state.md R27. -/
def Config.palBytes : Nat := 1024

/-- FREE VALUE. The value of a byte that the spec leaves unspecified ("any value": 93_implementation_defined.md U2, U3, U4, U5).
It is applied to the counter `State.draws`, which every use advances, so that each unspecified byte is a value of its own.
It has no body: nothing can be proved of what it is (log entry 5). -/
opaque Config.freeByte : Nat → Byte

end Sys2Proof
end

