-- ==== Sys2Proof/Syntax.lean ====
section
/-! DEFINITION. The items of the pixel-data stream, the palette entries and the host's two commands: one constructor of `Instr`
per row of spec/opcode_table.json (30_encoding.md R69). -/

namespace Sys2Proof

/-- The six pixel formats of 30_encoding.md R63. -/
inductive PixFmt where
  | true32 | true24 | true16 | mono16 | mono8 | pal8
  deriving DecidableEq, Repr

/-- The three palette entry formats of 30_encoding.md R65. -/
inductive PalFmt where
  | pe24 | pe32 | pe16
  deriving DecidableEq, Repr

/-- One source pixel, its fields already taken out of its bytes (30_encoding.md R63). -/
inductive Pixel where
  | true32 (blue green red alpha : Byte)
  | true24 (blue green red : Byte)
  | true16 (blue5 green5 red5 : BitVec 5) (alphaInd : BitVec 1)
  | mono16 (gray alpha : Byte)
  | mono8 (gray : Byte)
  | pal8 (index : Byte)
  deriving DecidableEq, Repr

/-- One palette entry, its fields already taken out of its bytes (30_encoding.md R65). -/
inductive PalEntry where
  | pe24 (blue green red : Byte)
  | pe32 (blue green red alpha : Byte)
  | pe16 (blue5 green5 red5 : BitVec 5) (ignored : BitVec 1)
  deriving DecidableEq, Repr

/-- The format of a pixel. -/
def Pixel.fmt : Pixel → PixFmt
  | .true32 .. => .true32
  | .true24 .. => .true24
  | .true16 .. => .true16
  | .mono16 .. => .mono16
  | .mono8 .. => .mono8
  | .pal8 .. => .pal8

/-- The format of a palette entry. -/
def PalEntry.fmt : PalEntry → PalFmt
  | .pe24 .. => .pe24
  | .pe32 .. => .pe32
  | .pe16 .. => .pe16

/-- The instructions: the fourteen rows of the opcode table. `run` and `lit` are packet headers and carry the packet's pixel
count; the pixels that follow are items of their own (30_encoding.md R60). -/
inductive Instr where
  /-- `RUN`: header of an encoded packet of `count` pixels. -/
  | run (count : Nat)
  /-- `LIT`: header of a raw packet of `count` pixels. -/
  | lit (count : Nat)
  /-- `RAWPX`: one pixel in raw mode. -/
  | rawpx (pixel : Pixel)
  /-- `PX.TRUE32` -/
  | pxTrue32 (blue green red alpha : Byte)
  /-- `PX.TRUE24` -/
  | pxTrue24 (blue green red : Byte)
  /-- `PX.TRUE16` -/
  | pxTrue16 (blue5 green5 red5 : BitVec 5) (alphaInd : BitVec 1)
  /-- `PX.MONO16` -/
  | pxMono16 (gray alpha : Byte)
  /-- `PX.MONO8` -/
  | pxMono8 (gray : Byte)
  /-- `PX.PAL8` -/
  | pxPal8 (index : Byte)
  /-- `PE.24` -/
  | pe24 (blue green red : Byte)
  /-- `PE.32` -/
  | pe32 (blue green red alpha : Byte)
  /-- `PE.16` -/
  | pe16 (blue5 green5 red5 : BitVec 5) (ignored : BitVec 1)
  /-- `START`, the value 1 of `CMD`. -/
  | start
  /-- `CLEAR`, the value 2 of `CMD`. -/
  | clear
  deriving DecidableEq, Repr

/-- A pixel of a packet (run-length mode) as an instruction. -/
def Pixel.toInstr : Pixel → Instr
  | .true32 b g r a => .pxTrue32 b g r a
  | .true24 b g r => .pxTrue24 b g r
  | .true16 b g r a => .pxTrue16 b g r a
  | .mono16 y a => .pxMono16 y a
  | .mono8 y => .pxMono8 y
  | .pal8 i => .pxPal8 i

/-- A palette entry as an instruction. -/
def PalEntry.toInstr : PalEntry → Instr
  | .pe24 b g r => .pe24 b g r
  | .pe32 b g r a => .pe32 b g r a
  | .pe16 b g r x => .pe16 b g r x

end Sys2Proof
end

