-- ==== Sys2Proof/Machine/State.lean ====
section
/-! DEFINITION. The state of TGA-RPD (10_state.md), the reasons a step can stop, and the state after reset. -/

namespace Sys2Proof.Machine

/-- The sequencer states of `STATUS.STATE` (10_state.md R15). Codes 6 and 7 are never produced, so they have no constructor. -/
inductive SeqState where
  | idle | hdr | pix | rep | done | err
  deriving DecidableEq, Repr

/-- The error causes of `STATUS.ERR` (10_state.md R16, 60_exceptions.md R140). Codes 4 to 7 are never produced. -/
inductive ErrCode where
  | none | eCfg | eTrunc | ePalIdx
  deriving DecidableEq, Repr

/-- An R,G,B,A tuple: the 32-bit register `PX` with its four bytes named (00_scope.md R7). -/
structure Rgba where
  r : Byte
  g : Byte
  b : Byte
  a : Byte
  deriving DecidableEq, Repr

/-- `PX = A || B || G || R` (00_scope.md R7). -/
def Rgba.pack (p : Rgba) : BitVec 32 := p.a ++ p.b ++ p.g ++ p.r

/-- A byte-addressed memory: the bytes that have been written, in strictly rising order of address. An address that is not
listed holds no known value (10_state.md R30 leaves `PAL` and `OUT` unspecified after reset; log entry 4). -/
abbrev Mem := List Host.Cell

/-- What the pixel expander answers (41_pixel_expander.md R100). -/
inductive Expanded where
  /-- The tuple, and the free-value counter after it. -/
  | pixel (px : Rgba) (draws : Nat)
  /-- `E_PALIDX`: the index is not below `PAL_COUNT` (R106). -/
  | badIndex
  /-- `PAL_BPP` selects no entry format: START refuses such a configuration, so no run gets here. -/
  | noFormat
  deriving DecidableEq, Repr

/-- The configuration registers, indices 0 to 9 (10_state.md R18, R20). `IN_START` and `IN_LEN` are `IN_AW` bits wide, a width
that is a parameter, and so are held as numbers (log entry 2). -/
structure Cfg where
  ctrl : BitVec 1
  imgType : BitVec 2
  bpp : BitVec 8
  palBpp : BitVec 8
  hasAlpha : BitVec 1
  width : BitVec 16
  height : BitVec 16
  palCount : BitVec 16
  inStart : Nat
  inLen : Nat
  deriving DecidableEq, Repr

/-- What the host can do to the block (42_host_commands.md R120 to R127). -/
inductive HostOp where
  /-- Read register index `n` (R126). -/
  | readReg (n : Nat)
  /-- Write `v` to register index `n` (R121; index 10 is `CMD`, R23). -/
  | writeReg (n v : Nat)
  /-- Write a byte of `PAL` (R122). -/
  | writePal (a : BitVec 10) (v : Byte)
  /-- Read a byte of `PAL` (R120). -/
  | readPal (a : BitVec 10)
  /-- Write a byte of `IN` (R123). -/
  | writeIn (a : Nat) (v : Byte)
  /-- Read a byte of `OUT` (R127). -/
  | readOut (a : Nat)
  /-- Write a byte of `OUT` (R120). -/
  | writeOut (a : Nat) (v : Byte)
  deriving DecidableEq, Repr

/-- Who moves next (10_state.md R10): the block, the host, or the reset input (70_reset_and_hazards.md R160). -/
inductive Move where
  | block
  | host (op : HostOp)
  | reset
  deriving DecidableEq, Repr

/-- The state of the machine. The last five fields are the model's own. -/
structure State where
  /-- The configuration registers (R20). -/
  cfg : Cfg
  /-- `STATUS.STATE` (R15). -/
  seq : SeqState
  /-- `STATUS.ERR` (R16). -/
  err : ErrCode
  /-- `STATUS.OVR` (R17). -/
  ovr : Bool
  /-- `IP`, the program counter: an address of `IN`, `IN_AW` bits (R14, log entry 2). -/
  ip : Nat
  /-- `OP`, the pixels emitted so far (R13). -/
  op : BitVec 32
  /-- `TOTAL`, the pixels of the run (R12). -/
  total : BitVec 32
  /-- `PKT_CNT` (R11). -/
  pktCnt : BitVec 8
  /-- `PKT_RUN` (R11). -/
  pktRun : Bool
  /-- `PX`, the held pixel (R11). -/
  px : Rgba
  /-- `IN` (R26). -/
  inMem : Mem
  /-- `PAL` (R27). -/
  palMem : Mem
  /-- `OUT` (R28). -/
  outMem : Mem
  /-- The implementation's parameters; no step changes them. -/
  par : Params
  /-- The moves that come next; when there is none left, every move is the block's (log entry 6). -/
  moves : List Move
  /-- The value the last host read returned. -/
  rdata : Nat
  /-- Whether the host has written `IN` during this run, after which no fetch of the run has a known
  value (20_memory.md R54, 93_implementation_defined.md U5). -/
  inStale : Bool
  /-- How many free values have been used (`Config.freeByte`). -/
  draws : Nat
  deriving DecidableEq, Repr

/-- Why the machine stops with a fault. No run from reset meets one in a step of the block (Safety.lean). -/
inductive Fault where
  /-- Raised by an emitting step whose `OP` is not below `OUT_CAP`, and by a host access of `OUT` at or above `4 * OUT_CAP`:
  the address does not exist (10_state.md R28). Safe. -/
  | outAddress
  /-- Raised by a host write of `IN` at or above `2^IN_AW`: the address does not exist (10_state.md R26). Safe. -/
  | inAddress
  /-- Raised by the PIX step when the configuration selects no pixel format or no palette entry format. START refuses every such
  configuration (41_pixel_expander.md R100: "No other combination reaches `expand`"). Safe. -/
  | noFormat
  deriving DecidableEq, Repr

/-- Why an instruction has no meaning. -/
inductive Refusal where
  /-- Raised by `exec` for an instruction whose meaning is not written. Safe. -/
  | notModelled (mnemonic : String)
  /-- Raised by the meaning of an item in a state in which the sequencer does not take that item (40_rle_packets.md R80, R81),
  which no step of the machine does; and by the block's step for bytes that are no item, which no fetch gives (R67). Safe. -/
  | notEnabled
  /-- Raised by a host write of `OUT` while the block is BUSY, which 42_host_commands.md R120 forbids to the host and gives no
  effect: a move the host does not have. Safe. -/
  | hostForbidden
  deriving DecidableEq, Repr

/-- What a step answers. -/
abbrev Result := Host.Outcome State Fault Refusal

/-- The configuration registers after reset (R30). -/
def Cfg.reset : Cfg where
  ctrl := 0
  imgType := 0
  bpp := 0
  palBpp := 0
  hasAlpha := 0
  width := 0
  height := 0
  palCount := 0
  inStart := 0
  inLen := 0

/-- The state after reset (10_state.md R30). `px` is unspecified there: zero is a DESIGN CHOICE (log entry 1). Nothing is listed
in the memories. The model's own fields are empty, zero and the default parameters (DESIGN CHOICE, log entries 3, 5, 6). -/
def State.reset : State where
  cfg := Cfg.reset
  seq := .idle
  err := .none
  ovr := false
  ip := 0
  op := 0
  total := 0
  pktCnt := 0
  pktRun := false
  px := ⟨0, 0, 0, 0⟩
  inMem := []
  palMem := []
  outMem := []
  par := Params.default
  moves := []
  rdata := 0
  inStale := false
  draws := 0

end Sys2Proof.Machine
end

