-- ==== Sys2Proof/Machine/Flags.lean ====
section
/-! DEFINITION. The status register, the configuration's derived values, the legality check and the end-of-image test. -/

namespace Sys2Proof.Machine

/-! ## STATUS -/

/-- The code of `STATUS.STATE` (10_state.md R15). -/
def SeqState.code : SeqState → BitVec 3
  | .idle => 0
  | .hdr => 1
  | .pix => 2
  | .rep => 3
  | .done => 4
  | .err => 5

/-- The code of `STATUS.ERR` (10_state.md R16, 60_exceptions.md R140). -/
def ErrCode.code : ErrCode → BitVec 3
  | .none => 0
  | .eCfg => 1
  | .eTrunc => 2
  | .ePalIdx => 3

/-- `HDR`, `PIX` and `REP` are the BUSY states (10_state.md R15). -/
def SeqState.busy : SeqState → Bool
  | .idle => false
  | .hdr => true
  | .pix => true
  | .rep => true
  | .done => false
  | .err => false

/-- Register index 11 (10_state.md R18): bit 8 `OVR`, bits 6:4 `ERR`, bits 2:0 `STATE`; bits 7 and 3 read 0. -/
def State.status (s : State) : BitVec 9 :=
  BitVec.ofNat 9 (s.seq.code.toNat + 16 * s.err.code.toNat + 256 * s.ovr.toNat)

/-! ## The configuration's fields and derived values -/

/-- `CTRL.RLE = 1`: run-length mode. -/
def Cfg.rle (c : Cfg) : Bool := c.ctrl == 1#1

/-- `HAS_ALPHA = 1`. -/
def Cfg.alpha (c : Cfg) : Bool := c.hasAlpha == 1#1

/-- `BYTES = BPP / 8` (00_scope.md R8). -/
def Cfg.bytes (c : Cfg) : Nat := c.bpp.toNat / 8

/-- `EW = ceil(PAL_BPP / 8)` (00_scope.md R8). -/
def Cfg.ew (c : Cfg) : Nat := (c.palBpp.toNat + 7) / 8

/-- `WIDTH * HEIGHT`, exact (10_state.md R12). -/
def Cfg.pixels (c : Cfg) : Nat := c.width.toNat * c.height.toNat

/-- The pixel format the configuration selects (30_encoding.md R63, 41_pixel_expander.md R100). -/
def Cfg.format (c : Cfg) : Option PixFmt :=
  if c.imgType = 2#2 then
    if c.bpp = 32#8 then some .true32
    else if c.bpp = 24#8 then some .true24
    else if c.bpp = 16#8 then some .true16
    else none
  else if c.imgType = 3#2 then
    if c.bpp = 16#8 then some .mono16
    else if c.bpp = 8#8 then some .mono8
    else none
  else if c.imgType = 1#2 then
    if c.bpp = 8#8 then some .pal8 else none
  else none

/-- The palette entry format `PAL_BPP` selects (30_encoding.md R65). That 15 selects the 16-bit layout is the spec's decision D9. -/
def Cfg.palFormat (c : Cfg) : Option PalFmt :=
  if c.palBpp = 24#8 then some .pe24
  else if c.palBpp = 32#8 then some .pe32
  else if c.palBpp = 16#8 || c.palBpp = 15#8 then some .pe16
  else none

/-- The legal configurations (10_state.md R22), its five items in order. -/
def Cfg.legal (c : Cfg) (par : Params) : Bool :=
  (c.imgType = 1#2 || c.imgType = 2#2 || c.imgType = 3#2)
  && (!(c.imgType = 1#2)
      || (c.bpp = 8#8 && (c.palBpp = 15#8 || c.palBpp = 16#8 || c.palBpp = 24#8 || c.palBpp = 32#8) && 1 ≤ c.palCount.toNat))
  && (!(c.imgType = 2#2) || (c.bpp = 16#8 || c.bpp = 24#8 || c.bpp = 32#8))
  && (!(c.imgType = 3#2) || (c.bpp = 8#8 || c.bpp = 16#8))
  && c.pixels ≤ par.outCap

/-! ## The end-of-image test (40_rle_packets.md R91) -/

/-- `STATUS.STATE` after an emit, from the new `OP` and `PKT_CNT`. -/
def endState (rle : Bool) (op' total : BitVec 32) (cnt' : BitVec 8) (seq : SeqState) : SeqState :=
  if op' = total then .done
  else if rle && cnt' == 0#8 then .hdr
  else seq

/-- `STATUS.OVR` after an emit, from the new `OP` and `PKT_CNT`. -/
def endOverrun (rle : Bool) (op' total : BitVec 32) (cnt' : BitVec 8) (ovr : Bool) : Bool :=
  if op' = total && rle && cnt' != 0#8 then true else ovr

end Sys2Proof.Machine
end

