-- ==== Sys2Proof/Machine/Ops.lean ====
section
/-! DEFINITION. The named operations over the memories and the registers, error entry and leaving the error state. -/

namespace Sys2Proof.Machine

/-! ## Memories -/

/-- One byte of a memory; `none` where nothing has been written (log entry 4). -/
def Mem.get? : Mem → Nat → Option Byte
  | [], _ => none
  | (k, b) :: rest, a => if k = a then some b else Mem.get? rest a

/-- Write one byte, keeping the addresses strictly rising. -/
def Mem.set : Mem → Nat → Byte → Mem
  | [], a, v => [(a, v)]
  | (k, b) :: rest, a, v =>
    if a < k then (a, v) :: (k, b) :: rest
    else if a = k then (a, v) :: rest
    else (k, b) :: Mem.set rest a v

/-- Write bytes at rising addresses: `MemWrite` (00_scope.md R7). -/
def Mem.write : Mem → Nat → List Byte → Mem
  | m, _, [] => m
  | m, a, v :: rest => Mem.write (m.set a v) (a + 1) rest

/-- Every listed address is above `lo` and they rise strictly. -/
def Mem.wfFrom : Nat → Mem → Bool
  | _, [] => true
  | lo, (k, _) :: rest => lo ≤ k && Mem.wfFrom (k + 1) rest

/-- The canonical form: addresses strictly rising. (No entry can equal what an unlisted address reads as, which is no value.) -/
def Mem.wf (m : Mem) : Bool := Mem.wfFrom 0 m

/-- Every listed address is below `n`. -/
def Mem.below (n : Nat) (m : Mem) : Bool := m.all (fun c => c.1 < n)

/-- `n` bytes at rising addresses from `a`, and the free-value counter after them: a byte that `look` does not give is a free
value of its own (93_implementation_defined.md U3, U5). -/
def readBytes (look : Nat → Option Byte) : Nat → Nat → Nat → List Byte × Nat
  | 0, _, d => ([], d)
  | n + 1, a, d =>
    match look a with
    | some b => (b :: (readBytes look n (a + 1) d).1, (readBytes look n (a + 1) d).2)
    | none => (Config.freeByte d :: (readBytes look n (a + 1) (d + 1)).1, (readBytes look n (a + 1) (d + 1)).2)

/-! ## Fetching from `IN` -/

/-- Whether the `n` bytes at `IP` lie wholly below `IN_LEN`, compared exactly (10_state.md R14, 60_exceptions.md R142). -/
def State.present (s : State) (n : Nat) : Bool := s.ip + n ≤ s.cfg.inLen

/-- What a fetch sees at an address of `IN`: nothing known once the host has disturbed the run (20_memory.md R54). -/
def State.inByte (s : State) (a : Nat) : Option Byte := if s.inStale then none else s.inMem.get? a

/-- `MemRead(IN, IP, n)` (20_memory.md R40, R44). -/
def State.fetch (s : State) (n : Nat) : List Byte × Nat := readBytes s.inByte n s.ip s.draws

/-- `IP <- IP + n` (10_state.md R14). -/
def State.advance (s : State) (n : Nat) : State := { s with ip := s.ip + n }

/-- The state after free values have been used. -/
def State.setDraws (s : State) (d : Nat) : State := { s with draws := d }

/-! ## Reading `PAL` -/

/-- `MemRead(PAL, idx * EW, EW)` (41_pixel_expander.md R106). -/
def State.entryBytes (s : State) (idx : Byte) : List Byte × Nat :=
  readBytes s.palMem.get? s.cfg.ew (idx.toNat * s.cfg.ew) s.draws

/-! ## Error entry (60_exceptions.md R145) and leaving it -/

/-- `raise E_x`: the step's own writes are discarded; `STATUS.ERR` and `STATUS.STATE` are written and nothing else. -/
def State.raise (s : State) (e : ErrCode) : State := { s with err := e, seq := .err }

/-- The writes of CLEAR, the only way out of ERR but reset (42_host_commands.md R125, 60_exceptions.md R147). -/
def State.cleared (s : State) : State := { s with seq := .idle, err := .none, ovr := false }

/-! ## Emitting a pixel (40_rle_packets.md R82, R91) -/

/-- The four bytes of a pixel in the order of `OUT` (20_memory.md R41). -/
def Rgba.outBytes (p : Rgba) : List Byte := [p.r, p.g, p.b, p.a]

/-- `PKT_CNT` after an emit: one less in run-length mode, unchanged in raw mode (R82). -/
def State.nextCnt (s : State) : BitVec 8 := if s.cfg.rle then s.pktCnt - 1#8 else s.pktCnt

/-- The writes of `emit(px)` (R82) and of the end-of-image test (R91). -/
def State.emitted (s : State) (px : Rgba) : State :=
  { s with
    outMem := s.outMem.write (4 * s.op.toNat) px.outBytes
    op := s.op + 1#32
    pktCnt := s.nextCnt
    seq := endState s.cfg.rle (s.op + 1#32) s.total s.nextCnt s.seq
    ovr := endOverrun s.cfg.rle (s.op + 1#32) s.total s.nextCnt s.ovr }

/-- `emit(px)`; an address of `OUT` exists only below `4 * OUT_CAP` (10_state.md R28). -/
def emit (px : Rgba) (s : State) : Result :=
  if s.op.toNat < s.par.outCap then .next (s.emitted px) else .fault .outAddress

/-- The writes of R88: hold the pixel of a run packet. -/
def State.latched (s : State) (px : Rgba) : State := { s with px := px, seq := .rep }

/-- The end of a PIX step, once the pixel is expanded: `IP <- IP + BYTES` (R84), then exactly one of R85, R86 and R88. -/
def deliver (px : Rgba) (s : State) : Result :=
  if s.cfg.rle && s.pktRun then .next ((s.advance s.cfg.bytes).latched px)
  else emit px (s.advance s.cfg.bytes)

/-! ## Packet headers (R83) -/

/-- The writes of the HDR step: past the header, and the packet's kind and count. -/
def State.opened (s : State) (isRun : Bool) (count : Nat) : State :=
  { s.advance 1 with pktRun := isRun, pktCnt := BitVec.ofNat 8 count, seq := .pix }

/-- The HDR step of a header that has been decoded. -/
def openPacket (isRun : Bool) (count : Nat) (s : State) : Result :=
  if s.seq = .hdr then
    if s.present 1 then .next (s.opened isRun count) else .next (s.raise .eTrunc)
  else .refused .notEnabled

/-! ## START (42_host_commands.md R124) -/

/-- The writes of a legal START. `inStale` is the model's own: the new run sees what `IN` holds now (20_memory.md R51, R54). -/
def State.started (s : State) : State :=
  { s with
    total := BitVec.ofNat 32 s.cfg.pixels
    ip := s.cfg.inStart
    op := 0#32
    pktCnt := 0#8
    pktRun := false
    err := .none
    ovr := false
    inStale := false
    seq := if s.cfg.pixels = 0 then .done else if s.cfg.rle then .hdr else .pix }

/-! ## Reset (70_reset_and_hazards.md R160, R161) -/

/-- The reset event: every piece of the block's state takes its reset value. `IN` is not the block's and keeps its bytes
(10_state.md R30; log entry 13); what is left of the model's own fields stays. -/
def State.resetEvent (s : State) : State :=
  { State.reset with
    inMem := s.inMem
    par := s.par
    moves := s.moves
    rdata := s.rdata
    draws := s.draws }

/-! ## Registers as the host sees them (10_state.md R18) -/

/-- The value of a register, zero-extended; index 10 and indices above 13 read 0 (42_host_commands.md R126). -/
def State.readReg (s : State) (n : Nat) : Nat :=
  match n with
  | 0 => s.cfg.ctrl.toNat
  | 1 => s.cfg.imgType.toNat
  | 2 => s.cfg.bpp.toNat
  | 3 => s.cfg.palBpp.toNat
  | 4 => s.cfg.hasAlpha.toNat
  | 5 => s.cfg.width.toNat
  | 6 => s.cfg.height.toNat
  | 7 => s.cfg.palCount.toNat
  | 8 => s.cfg.inStart
  | 9 => s.cfg.inLen
  | 11 => s.status.toNat
  | 12 => s.ip
  | 13 => s.op.toNat
  | _ => 0

/-- A write of a configuration register keeps the low bits of the value (10_state.md R19). An index that is no configuration
register changes nothing (R24; 20_memory.md R47). -/
def Cfg.write (c : Cfg) (inAW n v : Nat) : Cfg :=
  match n with
  | 0 => { c with ctrl := BitVec.ofNat 1 v }
  | 1 => { c with imgType := BitVec.ofNat 2 v }
  | 2 => { c with bpp := BitVec.ofNat 8 v }
  | 3 => { c with palBpp := BitVec.ofNat 8 v }
  | 4 => { c with hasAlpha := BitVec.ofNat 1 v }
  | 5 => { c with width := BitVec.ofNat 16 v }
  | 6 => { c with height := BitVec.ofNat 16 v }
  | 7 => { c with palCount := BitVec.ofNat 16 v }
  | 8 => { c with inStart := v % 2 ^ inAW }
  | 9 => { c with inLen := v % 2 ^ inAW }
  | _ => c

/-- The bus address of register index `n` (10_state.md R18, 20_memory.md R47). -/
def regAddr (par : Params) (n : Nat) : Nat := par.regBase + 8 * n

/-- The register index at a bus address, where there is one: registers are accessed as one unit (log entry 16). -/
def regIndexAt (par : Params) (addr : Nat) : Option Nat :=
  if par.regBase ≤ addr && (addr - par.regBase) % 8 == 0 then some ((addr - par.regBase) / 8) else none

end Sys2Proof.Machine
end

