-- ==== Sys2Proof/Machine/Commands.lean ====
section
/-! DEFINITION. The meanings of the host's two commands (42_host_commands.md). -/

namespace Sys2Proof.Machine

/-- `START` (R124): performed only in IDLE, ignored in every other state; an illegal configuration raises `E_CFG`. -/
def execStart (s : State) : Result :=
  if s.seq = .idle then
    if s.cfg.legal s.par then .next s.started else .next (s.raise .eCfg)
  else .next s

/-- `CLEAR` (R125): performed in IDLE, DONE and ERR, ignored while BUSY. -/
def execClear (s : State) : Result := if s.seq.busy then .next s else .next s.cleared

end Sys2Proof.Machine
end

