-- ==== Sys2Proof/WellFormed.lean ====
section
/-! DEFINITION. Which instructions have an encoding (30_encoding.md R61, R62: a packet stands for 1 to 128 pixels). -/

namespace Sys2Proof

/-- A packet's pixel count: `N + 1` for a 7-bit `N`. -/
def countOk (count : Nat) : Bool := 1 ≤ count && count ≤ 128

/-- Every other operand is a bit field that may hold any value (30_encoding.md R67). -/
def Instr.wf : Instr → Bool
  | .run count => countOk count
  | .lit count => countOk count
  | .rawpx _ => true
  | .pxTrue32 _ _ _ _ => true
  | .pxTrue24 _ _ _ => true
  | .pxTrue16 _ _ _ _ => true
  | .pxMono16 _ _ => true
  | .pxMono8 _ => true
  | .pxPal8 _ => true
  | .pe24 _ _ _ => true
  | .pe32 _ _ _ _ => true
  | .pe16 _ _ _ _ => true
  | .start => true
  | .clear => true

end Sys2Proof
end

