-- ==== Sys2Proof/Decode.lean ====
section
/-! DEFINITION. Decoding and encoding of items (30_encoding.md). Which kind of item is next is decided by the sequencer state and
the configuration, never by looking at the bytes (R60): the decoder takes that kind as an argument. -/

namespace Sys2Proof

/-- What the next bytes are (30_encoding.md R60, R63, R65; 10_state.md R23). -/
inductive ItemKind where
  /-- State `HDR`: a packet header byte. -/
  | header
  /-- State `PIX` with `CTRL.RLE = 0`: the item `RAWPX`. -/
  | rawPixel (f : PixFmt)
  /-- State `PIX` with `CTRL.RLE = 1`: a pixel of a packet. -/
  | pixel (f : PixFmt)
  /-- An entry read from `PAL`. -/
  | palEntry (f : PalFmt)
  /-- The value of a host write to register 10 (`CMD`). -/
  | command
  deriving DecidableEq, Repr

/-- Why bytes are not an item. -/
inductive DecodeError where
  /-- Fewer bytes than the item has. -/
  | short
  /-- A `CMD` value of 0 or 3: a no-op that has no row in the table (30_encoding.md R69). -/
  | noCommand
  deriving DecidableEq, Repr

/-- `BYTES` of each pixel format (30_encoding.md R63). -/
def PixFmt.bytes : PixFmt → Nat
  | .true32 => 4
  | .true24 => 3
  | .true16 => 2
  | .mono16 => 2
  | .mono8 => 1
  | .pal8 => 1

/-- `EW` of each palette entry format (30_encoding.md R65). -/
def PalFmt.bytes : PalFmt → Nat
  | .pe24 => 3
  | .pe32 => 4
  | .pe16 => 2

/-- How many bytes an item of a kind has. -/
def ItemKind.bytes : ItemKind → Nat
  | .header => 1
  | .rawPixel f => f.bytes
  | .pixel f => f.bytes
  | .palEntry f => f.bytes
  | .command => 1

/-! ## Bit fields -/

/-- The little-endian word `b[0] + 256 * b[1]` (20_memory.md R40, R42). -/
def le16 (b0 b1 : Byte) : BitVec 16 := BitVec.ofNat 16 (b0.toNat + 256 * b1.toNat)

/-- The byte at the lower address of a little-endian word. -/
def lo8 (w : BitVec 16) : Byte := w.extractLsb' 0 8

/-- The byte at the higher address of a little-endian word. -/
def hi8 (w : BitVec 16) : Byte := w.extractLsb' 8 8

/-- `w[4:0]` (R63, R65; 90_conflicts.md C3). -/
def blue5 (w : BitVec 16) : BitVec 5 := w.extractLsb' 0 5

/-- `w[9:5]` -/
def green5 (w : BitVec 16) : BitVec 5 := w.extractLsb' 5 5

/-- `w[14:10]` -/
def red5 (w : BitVec 16) : BitVec 5 := w.extractLsb' 10 5

/-- `w[15]` -/
def bit15 (w : BitVec 16) : BitVec 1 := w.extractLsb' 15 1

/-- The word `top || red || green || blue`. -/
def word555 (b g r : BitVec 5) (top : BitVec 1) : BitVec 16 :=
  BitVec.ofNat 16 (b.toNat + 32 * g.toNat + 1024 * r.toNat + 32768 * top.toNat)

/-- `T`, bit 7 of a packet header: 1 for an encoded packet (R61). -/
def headerIsRun (h : Byte) : Bool := h.getLsbD 7

/-- `count = zext_8(h[6:0]) + 1` (R62). -/
def headerCount (h : Byte) : Nat := (h.extractLsb' 0 7).toNat + 1

/-- The header byte of a packet of `count` pixels (R61, R70). -/
def headerByte (isRun : Bool) (count : Nat) : Byte := BitVec.ofNat 8 ((if isRun then 0x80 else 0) + (count - 1))

/-! ## Decoder -/

/-- R61: the two patterns cover all 256 header bytes. -/
def decodeHeader (h : Byte) : Instr :=
  if headerIsRun h then .run (headerCount h) else .lit (headerCount h)

/-- R63: the fields of a pixel, `b[0]` first. -/
def decodePixel : PixFmt → List Byte → Except DecodeError (Pixel × List Byte)
  | .true32, b0 :: b1 :: b2 :: b3 :: rest => .ok (.true32 b0 b1 b2 b3, rest)
  | .true24, b0 :: b1 :: b2 :: rest => .ok (.true24 b0 b1 b2, rest)
  | .true16, b0 :: b1 :: rest =>
    .ok (.true16 (blue5 (le16 b0 b1)) (green5 (le16 b0 b1)) (red5 (le16 b0 b1)) (bit15 (le16 b0 b1)), rest)
  | .mono16, b0 :: b1 :: rest => .ok (.mono16 b0 b1, rest)
  | .mono8, b0 :: rest => .ok (.mono8 b0, rest)
  | .pal8, b0 :: rest => .ok (.pal8 b0, rest)
  | _, _ => .error .short

/-- R65: the fields of a palette entry, `e[0]` first. -/
def decodeEntry : PalFmt → List Byte → Except DecodeError (PalEntry × List Byte)
  | .pe24, e0 :: e1 :: e2 :: rest => .ok (.pe24 e0 e1 e2, rest)
  | .pe32, e0 :: e1 :: e2 :: e3 :: rest => .ok (.pe32 e0 e1 e2 e3, rest)
  | .pe16, e0 :: e1 :: rest =>
    .ok (.pe16 (blue5 (le16 e0 e1)) (green5 (le16 e0 e1)) (red5 (le16 e0 e1)) (bit15 (le16 e0 e1)), rest)
  | _, _ => .error .short

/-- The command of a value written to `CMD`, which is 2 bits wide: 1 is START, 2 is CLEAR, 0 and 3 do nothing
(10_state.md R19, R23; log entry 9 for the bits above the width). -/
def decodeCommand (v : BitVec 2) : Except DecodeError Instr :=
  if v = 1#2 then .ok .start else if v = 2#2 then .ok .clear else .error .noCommand

/-- The decoder: total, and every refusal has a name. -/
def decode : ItemKind → List Byte → Except DecodeError (Instr × List Byte)
  | .header, h :: rest => .ok (decodeHeader h, rest)
  | .header, [] => .error .short
  | .rawPixel f, bs =>
    match decodePixel f bs with
    | .ok (p, rest) => .ok (.rawpx p, rest)
    | .error e => .error e
  | .pixel f, bs =>
    match decodePixel f bs with
    | .ok (p, rest) => .ok (p.toInstr, rest)
    | .error e => .error e
  | .palEntry f, bs =>
    match decodeEntry f bs with
    | .ok (p, rest) => .ok (p.toInstr, rest)
    | .error e => .error e
  | .command, c :: rest =>
    match decodeCommand (c.extractLsb' 0 2) with
    | .ok i => .ok (i, rest)
    | .error e => .error e
  | .command, [] => .error .short

/-! ## Encoder, written from the same tables -/

/-- The bytes of a pixel in address order (R63). -/
def encodePixel : Pixel → List Byte
  | .true32 b g r a => [b, g, r, a]
  | .true24 b g r => [b, g, r]
  | .true16 b g r a => [lo8 (word555 b g r a), hi8 (word555 b g r a)]
  | .mono16 y a => [y, a]
  | .mono8 y => [y]
  | .pal8 i => [i]

/-- The bytes of a palette entry in address order (R65). -/
def encodeEntry : PalEntry → List Byte
  | .pe24 b g r => [b, g, r]
  | .pe32 b g r a => [b, g, r, a]
  | .pe16 b g r x => [lo8 (word555 b g r x), hi8 (word555 b g r x)]

/-- The bytes of an instruction; a command is the value to write to `CMD`. -/
def encode : Instr → List Byte
  | .run count => [headerByte true count]
  | .lit count => [headerByte false count]
  | .rawpx p => encodePixel p
  | .pxTrue32 b g r a => encodePixel (.true32 b g r a)
  | .pxTrue24 b g r => encodePixel (.true24 b g r)
  | .pxTrue16 b g r a => encodePixel (.true16 b g r a)
  | .pxMono16 y a => encodePixel (.mono16 y a)
  | .pxMono8 y => encodePixel (.mono8 y)
  | .pxPal8 i => encodePixel (.pal8 i)
  | .pe24 b g r => encodeEntry (.pe24 b g r)
  | .pe32 b g r a => encodeEntry (.pe32 b g r a)
  | .pe16 b g r x => encodeEntry (.pe16 b g r x)
  | .start => [1]
  | .clear => [2]

/-- The kind of item an instruction is: the context in which its bytes decode to it. -/
def Instr.kind : Instr → ItemKind
  | .run _ => .header
  | .lit _ => .header
  | .rawpx p => .rawPixel p.fmt
  | .pxTrue32 _ _ _ _ => .pixel .true32
  | .pxTrue24 _ _ _ => .pixel .true24
  | .pxTrue16 _ _ _ _ => .pixel .true16
  | .pxMono16 _ _ => .pixel .mono16
  | .pxMono8 _ => .pixel .mono8
  | .pxPal8 _ => .pixel .pal8
  | .pe24 _ _ _ => .palEntry .pe24
  | .pe32 _ _ _ _ => .palEntry .pe32
  | .pe16 _ _ _ _ => .palEntry .pe16
  | .start => .command
  | .clear => .command

/-! ## The table's words without a context -/

/-- The bytes of the number `w`, least significant first: byte `k` of an item is at address `base + k` (R63). -/
def bytesOfNat : Nat → Nat → List Byte
  | 0, _ => []
  | n + 1, w => BitVec.ofNat 8 w :: bytesOfNat n (w / 256)

/-- The kind of item a bare table word of `nbits` bits is read as. DESIGN CHOICE (log entry 10): most rows of the table have no
opcode bits and differ only in the configuration that selects them, so a word alone does not name its row. A word of at most 8
bits is the command START or CLEAR if it is 1 or 2, and a packet header otherwise; a wider word is a truecolor pixel of its
width. -/
def tableKind (nbits w : Nat) : ItemKind :=
  if nbits ≤ 8 then
    if nbits ≤ 2 || w % 256 == 1 || w % 256 == 2 then .command else .header
  else if nbits ≤ 16 then .pixel .true16
  else if nbits ≤ 24 then .pixel .true24
  else .pixel .true32

/-- The instruction the decoder reads from a bare table word, in the context `tableKind` gives it. -/
def decodeTableWord (nbits w : Nat) : Option Instr :=
  match decode (tableKind nbits w) (bytesOfNat 4 w) with
  | .ok (i, _) => some i
  | .error _ => none

end Sys2Proof
end

