-- ==== Sys2Proof/Machine/Operands.lean ====
section
/-! DEFINITION. The pixel expander (41_pixel_expander.md): every pixel format and every palette entry format. -/

namespace Sys2Proof.Machine

/-- `scale5(c) = (c << 3) + (c >> 2)` in 8 bits (R110). -/
def scale5 (c : BitVec 5) : Byte := (c.zeroExtend 8 <<< 3) + (c.zeroExtend 8 >>> 2)

/-- R101. -/
def expandTrue32 (hasAlpha : Bool) (b g r a : Byte) : Rgba := ⟨r, g, b, if hasAlpha then a else 0xFF⟩

/-- R102. -/
def expandTrue24 (b g r : Byte) : Rgba := ⟨r, g, b, 0xFF⟩

/-- R103: the indicator bit makes the pixel transparent only when it is clear and `HAS_ALPHA = 1`. -/
def expandTrue16 (hasAlpha : Bool) (b g r : BitVec 5) (ind : BitVec 1) : Rgba :=
  ⟨scale5 r, scale5 g, scale5 b, if hasAlpha && ind == 0#1 then 0x00 else 0xFF⟩

/-- R104. -/
def expandMono16 (hasAlpha : Bool) (y a : Byte) : Rgba := ⟨y, y, y, if hasAlpha then a else 0xFF⟩

/-- R105. -/
def expandMono8 (y : Byte) : Rgba := ⟨y, y, y, 0xFF⟩

/-- R107. -/
def expandPe24 (b g r : Byte) : Rgba := ⟨r, g, b, 0xFF⟩

/-- R108. -/
def expandPe32 (hasAlpha : Bool) (b g r a : Byte) : Rgba := ⟨r, g, b, if hasAlpha then a else 0xFF⟩

/-- R109: always opaque, whatever bit 15 and `HAS_ALPHA` are. -/
def expandPe16 (b g r : BitVec 5) : Rgba := ⟨scale5 r, scale5 g, scale5 b, 0xFF⟩

/-- The palette entry formats (R107, R108, R109). -/
def expandEntry (hasAlpha : Bool) : PalEntry → Rgba
  | .pe24 b g r => expandPe24 b g r
  | .pe32 b g r a => expandPe32 hasAlpha b g r a
  | .pe16 b g r _ => expandPe16 b g r

/-- R106: the bound check comes first, so `PAL` is not read when it fails; the index is used as it is. -/
def expandPal8 (idx : Byte) (s : State) : Expanded :=
  if s.cfg.palCount.toNat ≤ idx.toNat then .badIndex
  else
    match s.cfg.palFormat with
    | none => .noFormat
    | some f =>
      match decodeEntry f (s.entryBytes idx).1 with
      | .ok (e, _) => .pixel (expandEntry s.cfg.alpha e) (s.entryBytes idx).2
      | .error _ => .noFormat

/-- `expand` (R100). -/
def expand (p : Pixel) (s : State) : Expanded :=
  match p with
  | .true32 b g r a => .pixel (expandTrue32 s.cfg.alpha b g r a) s.draws
  | .true24 b g r => .pixel (expandTrue24 b g r) s.draws
  | .true16 b g r i => .pixel (expandTrue16 s.cfg.alpha b g r i) s.draws
  | .mono16 y a => .pixel (expandMono16 s.cfg.alpha y a) s.draws
  | .mono8 y => .pixel (expandMono8 y) s.draws
  | .pal8 i => expandPal8 i s

end Sys2Proof.Machine
end

