-- ==== Sys2Proof/Machine/Pixels.lean ====
section
/-! DEFINITION. The meanings of the pixel formats and of the palette entry formats: the PIX step (40_rle_packets.md R84). -/

namespace Sys2Proof.Machine

/-- The PIX step of a pixel that has been decoded (R84). It is taken in state `PIX` for the one format the configuration selects.
The truncation test comes before the expansion; on either error nothing but the error's own writes happens. -/
def pixStep (p : Pixel) (s : State) : Result :=
  if s.seq = .pix ∧ s.cfg.format = some p.fmt then
    if s.present s.cfg.bytes then
      match expand p s with
      | .pixel px d => deliver px (s.setDraws d)
      | .badIndex => .next (s.raise .ePalIdx)
      | .noFormat => .fault .noFormat
    else .next (s.raise .eTrunc)
  else .refused .notEnabled

/-- The rest of the PIX step of a paletted pixel, from the entry that its index has selected (R106): the entry's colour is
delivered. Taken for the one entry format `PAL_BPP` selects (log entry 12). -/
def entryStep (e : PalEntry) (s : State) : Result :=
  if s.seq = .pix ∧ s.cfg.format = some .pal8 ∧ s.cfg.palFormat = some e.fmt then
    if s.present s.cfg.bytes then deliver (expandEntry s.cfg.alpha e) s else .next (s.raise .eTrunc)
  else .refused .notEnabled

/-- `PX.TRUE32` (R101). -/
def execPxTrue32 (b g r a : Byte) (s : State) : Result := pixStep (.true32 b g r a) s

/-- `PX.TRUE24` (R102). -/
def execPxTrue24 (b g r : Byte) (s : State) : Result := pixStep (.true24 b g r) s

/-- `PX.TRUE16` (R103). -/
def execPxTrue16 (b g r : BitVec 5) (i : BitVec 1) (s : State) : Result := pixStep (.true16 b g r i) s

/-- `PX.MONO16` (R104). -/
def execPxMono16 (y a : Byte) (s : State) : Result := pixStep (.mono16 y a) s

/-- `PX.MONO8` (R105). -/
def execPxMono8 (y : Byte) (s : State) : Result := pixStep (.mono8 y) s

/-- `PX.PAL8` (R106). -/
def execPxPal8 (i : Byte) (s : State) : Result := pixStep (.pal8 i) s

/-- `PE.24` (R107). -/
def execPe24 (b g r : Byte) (s : State) : Result := entryStep (.pe24 b g r) s

/-- `PE.32` (R108). -/
def execPe32 (b g r a : Byte) (s : State) : Result := entryStep (.pe32 b g r a) s

/-- `PE.16` (R109). -/
def execPe16 (b g r : BitVec 5) (x : BitVec 1) (s : State) : Result := entryStep (.pe16 b g r x) s

end Sys2Proof.Machine
end

