-- ==== Sys2Proof/Machine/Packets.lean ====
section
/-! DEFINITION. The meanings of the packet headers and of the raw-mode pixel (40_rle_packets.md). -/

namespace Sys2Proof.Machine

/-- `RUN` (R83, R89): the HDR step of an encoded packet. Its pixel and its copies are the steps that follow (R88, R87;
log entry 11). -/
def execRun (count : Nat) (s : State) : Result := openPacket true count s

/-- `LIT` (R83, R90): the HDR step of a raw packet. Its pixels are the steps that follow (R85; log entry 11). -/
def execLit (count : Nat) (s : State) : Result := openPacket false count s

/-- `RAWPX` (R86): the PIX step with `CTRL.RLE = 0`. -/
def execRawpx (p : Pixel) (s : State) : Result := if s.cfg.rle then .refused .notEnabled else pixStep p s

end Sys2Proof.Machine
end

