-- ==== Sys2Proof/Machine/Dispatch.lean ====
section
/-! DEFINITION. One arm per instruction. -/

namespace Sys2Proof.Machine

def exec (i : Instr) (s : State) : Host.Outcome State Fault Refusal :=
  match i with
  | .run count => Sys2Proof.Machine.execRun count s
  | .lit count => Sys2Proof.Machine.execLit count s
  | .rawpx p => Sys2Proof.Machine.execRawpx p s
  | .pxTrue32 b g r a => Sys2Proof.Machine.execPxTrue32 b g r a s
  | .pxTrue24 b g r => Sys2Proof.Machine.execPxTrue24 b g r s
  | .pxTrue16 b g r x => Sys2Proof.Machine.execPxTrue16 b g r x s
  | .pxMono16 y a => Sys2Proof.Machine.execPxMono16 y a s
  | .pxMono8 y => Sys2Proof.Machine.execPxMono8 y s
  | .pxPal8 x => Sys2Proof.Machine.execPxPal8 x s
  | .pe24 b g r => Sys2Proof.Machine.execPe24 b g r s
  | .pe32 b g r a => Sys2Proof.Machine.execPe32 b g r a s
  | .pe16 b g r x => Sys2Proof.Machine.execPe16 b g r x s
  | .start => Sys2Proof.Machine.execStart s
  | .clear => Sys2Proof.Machine.execClear s

end Sys2Proof.Machine
end

