-- ==== Sys2Proof/Machine/HostOps.lean ====
section
/-! DEFINITION. What the host does between the block's steps (42_host_commands.md R120 to R127). -/

namespace Sys2Proof.Machine

/-- The value a host read returned. -/
def State.returns (s : State) (v : Nat) : State := { s with rdata := v }

/-- A host read whose value the spec leaves unspecified. -/
def State.returnsFree (s : State) : State :=
  { s with rdata := (Config.freeByte s.draws).toNat, draws := s.draws + 1 }

/-- A host read of a byte that may never have been written. -/
def State.returnsByte (s : State) : Option Byte → State
  | some b => s.returns b.toNat
  | none => s.returnsFree

/-- A write of `CMD` performs the command of its low two bits at once and holds nothing (10_state.md R23). -/
def writeCmd (v : Nat) (s : State) : Result :=
  match decodeCommand (BitVec.ofNat 2 v) with
  | .ok i => exec i s
  | .error _ => .next s

/-- A write of a register by index (R120, R121; 10_state.md R24). -/
def writeReg (n v : Nat) (s : State) : Result :=
  if n = 10 then writeCmd v s
  else if s.seq.busy then .next s
  else .next { s with cfg := s.cfg.write s.par.inAW n v }

/-- A write of `PAL` (R120, R122). -/
def writePal (a : BitVec 10) (v : Byte) (s : State) : Result :=
  if s.seq.busy then .next s else .next { s with palMem := s.palMem.set a.toNat v }

/-- A read of `PAL` (R120, 93_implementation_defined.md U4). -/
def readPal (a : BitVec 10) (s : State) : Result :=
  if s.seq.busy then .next s.returnsFree else .next (s.returnsByte (s.palMem.get? a.toNat))

/-- A write of `IN` (R120, R123). During a run it makes every later fetch of the run unknown (20_memory.md R54,
93_implementation_defined.md U5; 70_reset_and_hazards.md R177 says so of the data range only: log entry 8). -/
def writeIn (a : Nat) (v : Byte) (s : State) : Result :=
  if a < 2 ^ s.par.inAW then
    .next { s with
      inMem := s.inMem.set a v
      inStale := s.inStale || s.seq.busy }
  else .fault .inAddress

/-- A read of `OUT` (R120, R127, 93_implementation_defined.md U2): a known value only in DONE and only for the bytes of the
image (log entry 14). -/
def readOut (a : Nat) (s : State) : Result :=
  if a < 4 * s.par.outCap then
    if s.seq = .done ∧ a < 4 * s.total.toNat then .next (s.returnsByte (s.outMem.get? a)) else .next s.returnsFree
  else .fault .outAddress

/-- A write of `OUT` (R120): forbidden to the host while the block is BUSY. -/
def writeOut (a : Nat) (v : Byte) (s : State) : Result :=
  if s.seq.busy then .refused .hostForbidden
  else if a < 4 * s.par.outCap then .next { s with outMem := s.outMem.set a v }
  else .fault .outAddress

/-- One host operation. -/
def hostOp (op : HostOp) (s : State) : Result :=
  match op with
  | .readReg n => .next (s.returns (s.readReg n))
  | .writeReg n v => writeReg n v s
  | .writePal a v => writePal a v s
  | .readPal a => readPal a s
  | .writeIn a v => writeIn a v s
  | .readOut a => readOut a s
  | .writeOut a v => writeOut a v s

/-- A bus read at an address, where a register lies there (10_state.md R18). -/
def busRead (par : Params) (addr : Nat) : Option HostOp := (regIndexAt par addr).map .readReg

/-- A bus write at an address, where a register lies there. -/
def busWrite (par : Params) (addr v : Nat) : Option HostOp := (regIndexAt par addr).map (fun n => .writeReg n v)

end Sys2Proof.Machine
end

