-- ==== Sys2Proof/Machine/Loader.lean ====
section
/-! DEFINITION. Placing one item where the next step takes it (log entry 10). -/

namespace Sys2Proof.Machine

/-- The memory that holds these bytes from address `a` on and nothing else. -/
def Mem.ofBytes : Nat → List Byte → Mem
  | _, [] => []
  | a, b :: rest => (a, b) :: Mem.ofBytes (a + 1) rest

/-- A configuration that selects a truecolor format of `bpp` bits in run-length mode, with `len` bytes of input, for an image of
128 by 1 pixels. -/
def Cfg.forItem (bpp : BitVec 8) (len : Nat) : Cfg where
  ctrl := 1
  imgType := 2
  bpp := bpp
  palBpp := 0
  hasAlpha := 0
  width := 128
  height := 1
  palCount := 0
  inStart := 0
  inLen := len

/-- A run in progress at its first item, whose bytes `IN` holds from address 0 and whose next move is the block's. -/
def State.placeItem (s : State) (cfg : Cfg) (seq : SeqState) (cnt : BitVec 8) (bytes : List Byte) : State :=
  { s with
    cfg := cfg
    seq := seq
    err := .none
    ovr := false
    ip := 0
    op := 0
    total := 128
    pktCnt := cnt
    pktRun := false
    inMem := Mem.ofBytes 0 bytes
    inStale := false
    moves := .block :: s.moves }

/-- The longest item that follows a header in this configuration: 128 pixels of 3 bytes. -/
def headerTail : List Byte := List.replicate 384 0

/-- A header at the first item of a run, or a pixel of a raw packet, or a write of `CMD`. -/
def State.placeWord (s : State) (k : ItemKind) (w : Nat) : State :=
  match k with
  | .command => { s with moves := .host (.writeReg 10 w) :: s.moves }
  | .header => s.placeItem (Cfg.forItem 24 385) .hdr 0 (bytesOfNat 1 w ++ headerTail)
  | .pixel .true16 => s.placeItem (Cfg.forItem 16 2) .pix 1 (bytesOfNat 2 w)
  | .pixel .true24 => s.placeItem (Cfg.forItem 24 3) .pix 1 (bytesOfNat 3 w)
  | .pixel _ => s.placeItem (Cfg.forItem 32 4) .pix 1 (bytesOfNat 4 w)
  | .rawPixel _ => s
  | .palEntry _ => s

end Sys2Proof.Machine
end

