-- ==== Sys2Proof/Machine/Sequencer.lean ====
section
/-! DEFINITION. The block's own step: fetch, decode and run the next item (40_rle_packets.md R80, R81). -/

namespace Sys2Proof.Machine

/-- Run the item that the fetched bytes are. -/
def runDecoded (d : Except DecodeError (Instr × List Byte)) (s : State) : Result :=
  match d with
  | .ok (i, _) => exec i s
  | .error _ => .refused .notEnabled

/-- Fetch an item of `n` bytes at `IP` and run it; an item that does not lie wholly below `IN_LEN` is not fetched
(60_exceptions.md R142). -/
def fetchAndRun (k : ItemKind) (n : Nat) (s : State) : Result :=
  if s.present n then runDecoded (decode k (s.fetch n).1) (s.setDraws (s.fetch n).2) else .next (s.raise .eTrunc)

/-- The kind of pixel item the mode gives (30_encoding.md R60). -/
def Cfg.pixelKind (c : Cfg) (f : PixFmt) : ItemKind := if c.rle then .pixel f else .rawPixel f

/-- The PIX step. -/
def pixItem (s : State) : Result :=
  match s.cfg.format with
  | some f => fetchAndRun (s.cfg.pixelKind f) s.cfg.bytes s
  | none => .fault .noFormat

/-- One step of the block. In `HDR` the HDR step, in `PIX` the PIX step, in `REP` one copy of the held pixel (R87); in IDLE, DONE
and ERR it does nothing and waits for the host (R80). -/
def blockStep (s : State) : Result :=
  match s.seq with
  | .idle => .next s
  | .hdr => fetchAndRun .header 1 s
  | .pix => pixItem s
  | .rep => emit s.px s
  | .done => .next s
  | .err => .next s

end Sys2Proof.Machine
end

