-- ==== Sys2Proof/Machine/Step.lean ====
section
/-! DEFINITION. One step of the machine. -/

namespace Sys2Proof.Machine

/-- One move of the host or of the reset input, or one step of the block. -/
def takeMove (m : Move) (s : State) : Result :=
  match m with
  | .block => blockStep s
  | .host op => hostOp op s
  | .reset => .next s.resetEvent

/-- One step: the move that `moves` names is taken and used up; when none is left, the block steps (10_state.md R10). -/
def step (s : State) : Host.Outcome State Fault Refusal :=
  match s.moves with
  | [] => blockStep s
  | m :: rest => takeMove m { s with moves := rest }

/-- `s` with the table word `w` placed where the next step takes it (log entry 10). -/
def State.withFetchWord (s : State) (nbits w : Nat) : State := s.placeWord (tableKind nbits w) w

end Sys2Proof.Machine
end

