-- ==== Sys2Proof/Machine/HostDuties.lean ====
section
/-! DEFINITION. What the surrounding software does with a file: before a run, with the block, and after it
(70_reset_and_hazards.md section 2). 00_scope.md R4 leaves it out of the hardware; it is written here because those rules are
normative for the host. Nothing of the machine reads this file (log entry 15). -/

namespace Sys2Proof.Machine.HostDuties

/-- What the host reports instead of a buffer (60_exceptions.md R140, 70_reset_and_hazards.md R163). -/
inductive HostError where
  /-- MalformedHeader. -/
  | malformedHeader
  /-- TruncatedStream. -/
  | truncatedStream
  /-- PaletteIndexOutOfRange. -/
  | paletteIndexOutOfRange
  /-- `ERR = 1`: a host bug or an image larger than `OUT_CAP` (R163 item 6). -/
  | blockRefused
  deriving DecidableEq, Repr

/-- The colour model, a label of the finished buffer (R174). -/
inductive ColourModel where
  | nonPremultiplied | premultiplied
  deriving DecidableEq, Repr

/-- The 18-byte header (R168). -/
structure Header where
  idLength : Byte
  paletteType : Byte
  imageType : Byte
  paletteFirst : BitVec 16
  paletteLength : BitVec 16
  paletteBpp : Byte
  width : BitVec 16
  height : BitVec 16
  bpp : Byte
  flags : Byte
  deriving DecidableEq, Repr

/-- The byte at an offset that is known to exist. -/
def byteAt (bs : List Byte) (o : Nat) : Byte := bs.getD o 0

/-- A 16-bit little-endian field (R168). -/
def u16At (bs : List Byte) (o : Nat) : BitVec 16 := le16 (byteAt bs o) (byteAt bs (o + 1))

/-- A 32-bit little-endian field (R172; DEDUCED in the spec, 91_not_in_source.md N26). -/
def u32At (bs : List Byte) (o : Nat) : Nat := (u16At bs o).toNat + 65536 * (u16At bs (o + 2)).toNat

/-- Read the header: fewer than 18 bytes is TruncatedStream (R168). The two origin fields are ignored. -/
def readHeader (bs : List Byte) : Except HostError Header :=
  if bs.length < 18 then .error .truncatedStream
  else .ok {
    idLength := byteAt bs 0
    paletteType := byteAt bs 1
    imageType := byteAt bs 2
    paletteFirst := u16At bs 3
    paletteLength := u16At bs 5
    paletteBpp := byteAt bs 7
    width := u16At bs 12
    height := u16At bs 14
    bpp := byteAt bs 16
    flags := byteAt bs 17 }

/-- `image_type[1:0]` (R168). -/
def Header.kind (h : Header) : BitVec 2 := h.imageType.extractLsb' 0 2

/-- `image_type[3]` (R168). -/
def Header.rle (h : Header) : BitVec 1 := h.imageType.extractLsb' 3 1

/-- The alpha-size field `flags & 0x0f` (R169). -/
def Header.alphaSize (h : Header) : BitVec 4 := h.flags.extractLsb' 0 4

/-- R169: one of 0, 1 and 8. -/
def Header.alphaSizeOk (h : Header) : Bool := h.alphaSize = 0#4 || h.alphaSize = 1#4 || h.alphaSize = 8#4

/-- R170: the header-implied `has_alpha`. -/
def Header.impliedAlpha (h : Header) : Bool :=
  h.alphaSize ≠ 0#4 || h.bpp = 32#8 || (h.kind = 3#2 && h.bpp = 16#8) || (h.kind = 1#2 && h.paletteBpp = 32#8)

/-- R171: the header whitelist. -/
def Header.whitelisted (h : Header) : Bool :=
  if h.kind = 1#2 then
    h.paletteType ≠ 0#8 && h.bpp = 8#8 && h.paletteFirst.toNat < h.paletteLength.toNat
    && (h.paletteBpp = 15#8 || h.paletteBpp = 16#8 || h.paletteBpp = 24#8 || h.paletteBpp = 32#8)
  else if h.kind = 2#2 then (h.bpp = 16#8 || h.bpp = 32#8) || (h.bpp = 24#8 && !h.impliedAlpha)
  else if h.kind = 3#2 then (h.impliedAlpha && h.bpp = 16#8) || (!h.impliedAlpha && h.bpp = 8#8)
  else false

/-- Validation (R169, R171): any failure is MalformedHeader and the block is not touched. -/
def validate (h : Header) : Except HostError Header :=
  if h.alphaSizeOk && h.whitelisted then .ok h else .error .malformedHeader

/-- `"TRUEVISION-XFILE."` and NUL (R172). -/
def signature : List Byte :=
  [0x54, 0x52, 0x55, 0x45, 0x56, 0x49, 0x53, 0x49, 0x4F] ++ [0x4E, 0x2D, 0x58, 0x46, 0x49, 0x4C, 0x45, 0x2E, 0x00]

/-- The attribute byte's meaning (R172): 3 is independent alpha, 4 premultiplied, everything else no alpha. -/
def attributePolicy (a : Byte) : Bool × ColourModel :=
  if a = 3 then (true, .nonPremultiplied) else if a = 4 then (true, .premultiplied) else (false, .nonPremultiplied)

/-- The attribute byte at `offset + 0x1ee`; a short read is TruncatedStream (R163 item 2). -/
def readAttribute (bs : List Byte) (extOffset : Nat) : Except HostError (Bool × ColourModel) :=
  match bs[extOffset + 0x1ee]? with
  | some a => .ok (attributePolicy a)
  | none => .error .truncatedStream

/-- Whether the last 26 bytes are a valid footer with an extension area (R172). -/
def footerPoints (bs : List Byte) : Bool :=
  (bs.drop (bs.length - 18)) = signature && u32At bs (bs.length - 26) ≠ 0

/-- Extension-area resolution (R172): the final `HAS_ALPHA` and the colour model. -/
def resolveExtension (bs : List Byte) (implied : Bool) : Except HostError (Bool × ColourModel) :=
  if bs.length < 26 then .error .truncatedStream
  else if footerPoints bs then readAttribute bs (u32At bs (bs.length - 26))
  else .ok (implied, .nonPremultiplied)

/-- `ceil(palette_bpp / 8)` (R173). -/
def Header.entryWidth (h : Header) : Nat := (h.paletteBpp.toNat + 7) / 8

/-- `palette_length - palette_first` for a paletted image (R168); an image that is not paletted does not use it. -/
def Header.palCount (h : Header) : Nat := if h.kind = 1#2 then h.paletteLength.toNat - h.paletteFirst.toNat else 0

/-- The bytes of `PAL` (R173): the kept entries, of which the first 256 have a place. -/
def readPalette (bs : List Byte) (h : Header) : Except HostError (List Byte) :=
  if h.kind = 1#2 then
    if bs.length < 18 + h.idLength.toNat + h.paletteLength.toNat * h.entryWidth then .error .truncatedStream
    else .ok ((bs.drop (18 + h.idLength.toNat + h.paletteFirst.toNat * h.entryWidth)).take
      (min h.palCount 256 * h.entryWidth))
  else .ok []

/-- `IN_START` for a stream that lies whole in `IN` (20_memory.md R48). -/
def Header.pixelStart (h : Header) : Nat :=
  18 + h.idLength.toNat + (if h.kind = 1#2 then h.paletteLength.toNat * h.entryWidth else 0)

/-- The values of the configuration registers (R168, R172, 20_memory.md R48). -/
def registerValues (h : Header) (hasAlpha : Bool) (len : Nat) : List (Nat × Nat) :=
  [(0, h.rle.toNat), (1, h.kind.toNat), (2, h.bpp.toNat), (3, h.paletteBpp.toNat), (4, hasAlpha.toNat)]
  ++ [(5, h.width.toNat), (6, h.height.toNat), (7, h.palCount), (8, h.pixelStart), (9, len)]

/-- The configuration the host programs. -/
def Header.cfg (h : Header) (hasAlpha : Bool) (len : Nat) : Cfg where
  ctrl := h.rle
  imgType := h.kind
  bpp := h.bpp
  palBpp := h.paletteBpp
  hasAlpha := BitVec.ofBool hasAlpha
  width := h.width
  height := h.height
  palCount := BitVec.ofNat 16 h.palCount
  inStart := h.pixelStart
  inLen := len

/-- Writes of rising addresses of `IN`. -/
def loadIn : Nat → List Byte → List Move
  | _, [] => []
  | a, b :: rest => .host (.writeIn a b) :: loadIn (a + 1) rest

/-- Writes of rising addresses of `PAL`. -/
def loadPal : Nat → List Byte → List Move
  | _, [] => []
  | a, b :: rest => .host (.writePal (BitVec.ofNat 10 a) b) :: loadPal (a + 1) rest

/-- What the host knows once it has prepared a run. -/
structure Plan where
  header : Header
  hasAlpha : Bool
  model : ColourModel
  palette : List Byte
  deriving DecidableEq, Repr

/-- Steps 1 to 3 of R163, in that order. -/
def prepare (bs : List Byte) : Except HostError Plan := do
  let h ← readHeader bs
  let h ← validate h
  let (ha, m) ← resolveExtension bs h.impliedAlpha
  let p ← readPalette bs h
  return { header := h, hasAlpha := ha, model := m, palette := p }

/-- The host's writes of R163 items 3 to 5, from IDLE: load `IN` and `PAL`, write the registers, write START.
DESIGN CHOICE (log entry 17): the length is not checked, so a file of more than `2^IN_AW` bytes makes a write at an address that does not
exist, and one of exactly `2^IN_AW` bytes writes an `IN_LEN` whose low bits are 0. -/
def Plan.moves (p : Plan) (bs : List Byte) : List Move :=
  loadIn 0 bs ++ loadPal 0 p.palette
  ++ (registerValues p.header p.hasAlpha bs.length).map (fun c => .host (.writeReg c.1 c.2))
  ++ [.host (.writeReg 10 1)]

/-- Where the orientation pass takes output pixel `p` from (R175): bit 4 of `flags` mirrors each row, bit 5 clear mirrors the
rows. -/
def orientIndex (w h : Nat) (flags : Byte) (p : Nat) : Nat :=
  (if flags.getLsbD 5 then p / w else h - 1 - p / w) * w + (if flags.getLsbD 4 then w - 1 - p % w else p % w)

/-- The orientation pass over the pixels copied out of `OUT` (R175). -/
def orient (w h : Nat) (flags : Byte) (px : List Rgba) : List Rgba :=
  (List.range (w * h)).map (fun p => px.getD (orientIndex w h flags p) ⟨0, 0, 0, 0⟩)

/-! ## The host at the block (R163 items 4 to 7) -/

/-- One operation after another; the first that stops, stops. -/
def andThen {α β : Type} (r : Host.Outcome α Fault Refusal) (f : α → Host.Outcome β Fault Refusal) : Host.Outcome β Fault Refusal :=
  match r with
  | .next a => f a
  | .fault e => .fault e
  | .refused e => .refused e

/-- These moves, one after the other. -/
def perform : List Move → State → Result
  | [], s => .next s
  | m :: rest, s => andThen (takeMove m s) (fun t => perform rest t)

/-- A read of `STATUS`; its value is in `rdata` afterwards. -/
def readStatus (s : State) : Result := takeMove (.host (.readReg 11)) s

/-- A write of CLEAR. -/
def writeClear (s : State) : Result := takeMove (.host (.writeReg 10 2)) s

/-- `STATUS.STATE` in a value of `STATUS` (10_state.md R15, R18). -/
def statusState (v : Nat) : Nat := v % 8

/-- `STATUS.ERR` in a value of `STATUS` (10_state.md R16, R18). -/
def statusErr (v : Nat) : Nat := v / 16 % 8

/-- Poll `STATUS` until `STATE` is DONE or ERR, the block taking a step after each read that shows neither; at most `n` steps are
waited for. `rdata` holds the last value read. -/
def poll : Nat → State → Result
  | 0, s => readStatus s
  | n + 1, s => andThen (readStatus s) (fun t =>
    if statusState t.rdata = 4 ∨ statusState t.rdata = 5 then .next t
    else andThen (blockStep t) (fun u => poll n u))

/-- Make sure the block is in IDLE (R163 item 4): one that is not is waited for and then cleared. `rdata` holds `STATUS`. -/
def bringToIdle (n : Nat) (s : State) : Result :=
  andThen (readStatus s) (fun t =>
    if statusState t.rdata = 0 then .next t
    else andThen (poll n t) (fun u => andThen (writeClear u) (fun v => readStatus v)))

/-- The bytes of `OUT` at `n` addresses from `a` on, as the host reads them (42_host_commands.md R127). -/
def readImage : Nat → Nat → State → Host.Outcome (List Byte × State) Fault Refusal
  | 0, _, s => .next ([], s)
  | n + 1, a, s => andThen (takeMove (.host (.readOut a)) s) (fun t =>
    andThen (readImage n (a + 1) t) (fun r => .next (BitVec.ofNat 8 t.rdata :: r.1, r.2)))

/-- The pixels that the bytes of `OUT` hold: R, G, B, A (20_memory.md R41). -/
def pixelsOf : List Byte → List Rgba
  | r :: g :: b :: a :: rest => ⟨r, g, b, a⟩ :: pixelsOf rest
  | _ => []

/-- What the host returns on success (R174): the buffer with width, height and colour model. -/
structure Decoded where
  pixels : List Rgba
  width : BitVec 16
  height : BitVec 16
  model : ColourModel
  deriving DecidableEq, Repr

/-- What `decode(bytes)` answers (R174). -/
inductive Answer where
  | image (d : Decoded)
  | error (e : HostError)
  /-- Not the spec's: the run has not ended within the steps that the host has waited for. -/
  | waiting
  deriving DecidableEq, Repr

/-- The returned buffer (R174, R175): the copied bytes as pixels, after the orientation pass. Width and height are the header's,
the colour model is that of R172. -/
def Plan.decoded (p : Plan) (bytes : List Byte) : Decoded where
  pixels := orient p.header.width.toNat p.header.height.toNat p.header.flags (pixelsOf bytes)
  width := p.header.width
  height := p.header.height
  model := p.model

/-- What the host reports of a run that has ended in ERR, from `STATUS.ERR` (R163 item 6). -/
def reportOf (err : Nat) : HostError :=
  if err = 2 then .truncatedStream else if err = 3 then .paletteIndexOutOfRange else .blockRefused

/-- Items 6 and 7 of R163, once `STATUS` has been read into `rdata`. On DONE the `4 * TOTAL` bytes of `OUT` are copied before CLEAR is
written (R178 item b); on ERR no buffer is returned. -/
def finish (p : Plan) (s : State) : Host.Outcome (Answer × State) Fault Refusal :=
  if statusState s.rdata = 4 then
    andThen (readImage (4 * (p.header.width.toNat * p.header.height.toNat)) 0 s) (fun r =>
      andThen (writeClear r.2) (fun t => .next (.image (p.decoded r.1), t)))
  else if statusState s.rdata = 5 then
    andThen (writeClear s) (fun t => .next (.error (reportOf (statusErr s.rdata)), t))
  else .next (.waiting, s)

/-- The host's whole work for one file (R163). A file that the host rejects does not touch the block. The host waits for at most `n`
steps of a run. DESIGN CHOICE (log entry 17): a file that is not rejected and that `IN` cannot hold stops with `inAddress`, and one of
exactly `2^IN_AW` bytes is run with `IN_LEN = 0`. -/
def decodeFile (n : Nat) (bs : List Byte) (s : State) : Host.Outcome (Answer × State) Fault Refusal :=
  match prepare bs with
  | .error e => .next (.error e, s)
  | .ok p => andThen (bringToIdle n s) (fun t =>
    if statusState t.rdata = 0 then
      andThen (perform (p.moves bs) t) (fun u => andThen (poll n u) (fun v => finish p v))
    else .next (.waiting, t))

end Sys2Proof.Machine.HostDuties
end

