-- ==== Sys2Proof/Safety.lean ====
section
/-! DEFINITION. The terms the statements use: the invariants of 10_state.md R31, what emitting a pixel does, and the step bound
of 70_reset_and_hazards.md R181. -/

namespace Sys2Proof.Machine

/-- The invariants of a machine that has run from reset under the rules of the spec: 10_state.md R31, the widths of the registers
(R14, R18), the sizes of the memories (R26 to R28), and what START has checked of a run in progress (R22). Nothing a host does
through `moves` breaks them. -/
structure Inv (s : State) : Prop where
  /-- `IP`, `IN_START` and `IN_LEN` fit in `IN_AW` bits (R14, R18). -/
  widths : s.ip < 2 ^ s.par.inAW ∧ s.cfg.inStart < 2 ^ s.par.inAW ∧ s.cfg.inLen < 2 ^ s.par.inAW
  /-- The memories are in canonical form. -/
  canonical : s.inMem.wf ∧ s.palMem.wf ∧ s.outMem.wf
  /-- Only addresses that exist are listed (R26, R27, R28). -/
  sizes : s.inMem.below (2 ^ s.par.inAW) ∧ s.palMem.below Config.palBytes ∧ s.outMem.below (4 * s.par.outCap)
  /-- R31 item 1. -/
  opLe : s.op.toNat ≤ s.total.toNat
  /-- R31 item 1. -/
  opBusy : s.seq.busy → s.op.toNat < s.total.toNat
  /-- R31 item 1. -/
  opDone : s.seq = .done → s.op.toNat = s.total.toNat
  /-- R31 item 2: before the first fetch of the run `IP = IN_START`, after it `IP <= IN_LEN`. -/
  ipBusy : s.seq.busy → s.ip ≤ s.cfg.inLen ∨
    (s.ip = s.cfg.inStart ∧ s.op = 0#32 ∧ (s.seq = .hdr ∨ (s.seq = .pix ∧ s.cfg.rle = false)))
  /-- R31 item 3. -/
  errIff : s.err ≠ .none ↔ s.seq = .err
  /-- R31 item 4. -/
  cntPix : s.seq = .pix → s.cfg.rle → 1 ≤ s.pktCnt.toNat ∧ s.pktCnt.toNat ≤ 128
  /-- R31 item 4. -/
  cntRep : s.seq = .rep → 1 ≤ s.pktCnt.toNat ∧ s.pktCnt.toNat ≤ 128 ∧ s.pktRun
  /-- R31 item 4. -/
  cntHdr : s.seq = .hdr → s.pktCnt = 0#8
  /-- R31 item 5. -/
  rawStates : s.seq = .hdr ∨ s.seq = .rep → s.cfg.rle
  /-- R82: in raw mode `PKT_CNT` stays 0; only START writes it and `PKT_RUN` (R11). -/
  rawCnt : s.seq = .pix → s.cfg.rle = false → s.pktCnt = 0#8 ∧ s.pktRun = false
  /-- R31 item 6, the part a state shows: every byte of the pixels emitted so far is listed. -/
  written : s.seq.busy ∨ s.seq = .done → ∀ a, a < 4 * s.op.toNat → s.outMem.get? a ≠ none
  /-- R31 item 7. -/
  ovrDone : s.ovr → s.seq = .done
  /-- START refuses an illegal configuration, which cannot change during a run (R22, 42_host_commands.md R120, R124). -/
  busyLegal : s.seq.busy → s.cfg.legal s.par ∧ s.total.toNat = s.cfg.pixels

/-- What emitting the pixel `px` in state `s` makes of it (40_rle_packets.md R82, R91; 20_memory.md R41): the four bytes of `OUT`
at `4 * OP`, `OP`, in run-length mode `PKT_CNT`, `STATUS.STATE` and `STATUS.OVR`, and nothing else. -/
structure Emitted (px : Rgba) (s t : State) : Prop where
  bytes : t.outMem.get? (4 * s.op.toNat) = some px.r ∧ t.outMem.get? (4 * s.op.toNat + 1) = some px.g
    ∧ t.outMem.get? (4 * s.op.toNat + 2) = some px.b ∧ t.outMem.get? (4 * s.op.toNat + 3) = some px.a
  others : ∀ a, (a < 4 * s.op.toNat ∨ 4 * s.op.toNat + 4 ≤ a) → t.outMem.get? a = s.outMem.get? a
  op : t.op = s.op + 1#32
  cntRle : s.cfg.rle → t.pktCnt = s.pktCnt - 1#8
  cntRaw : s.cfg.rle = false → t.pktCnt = s.pktCnt
  last : t.op = s.total → t.seq = .done ∧ t.ovr = (s.ovr || (s.cfg.rle && t.pktCnt != 0#8))
  packetEnd : t.op ≠ s.total → s.cfg.rle → t.pktCnt = 0#8 → t.seq = .hdr ∧ t.ovr = s.ovr
  goesOn : t.op ≠ s.total → (s.cfg.rle = false ∨ t.pktCnt ≠ 0#8) → t.seq = s.seq ∧ t.ovr = s.ovr
  frame : t = { s with outMem := t.outMem, op := t.op, pktCnt := t.pktCnt, seq := t.seq, ovr := t.ovr }

/-- What delivering the pixel `px` of `n` source bytes makes of `s` (R84 followed by exactly one of R85, R86 and R88). -/
def Delivered (px : Rgba) (n : Nat) (s t : State) : Prop :=
  if s.cfg.rle = true ∧ s.pktRun = true then t = { s with ip := s.ip + n, px := px, seq := .rep }
  else Emitted px { s with ip := s.ip + n } t

/-- A pixel of format `f` can be taken in `s`: state `PIX`, `f` is the format the configuration selects, all its bytes exist, and
the pixel has a place in `OUT`. -/
def PixelReady (f : PixFmt) (s : State) : Prop :=
  s.seq = .pix ∧ s.cfg.format = some f ∧ s.ip + f.bytes ≤ s.cfg.inLen ∧ s.op.toNat < s.par.outCap

/-- `rank` of R181. -/
def SeqState.rank : SeqState → Nat
  | .pix => 1
  | .rep => 2
  | .idle => 0
  | .hdr => 0
  | .done => 0
  | .err => 0

/-- `mu` of R181. -/
def State.mu (s : State) : Nat := if s.seq.busy then 3 * (s.total.toNat - s.op.toNat) - s.seq.rank else 0

/-- A host operation whose addresses exist and that the host is not forbidden (42_host_commands.md R120). -/
def HostOp.allowed (op : HostOp) (s : State) : Bool :=
  match op with
  | .readReg _ => true
  | .writeReg _ _ => true
  | .writePal _ _ => true
  | .readPal _ => true
  | .writeIn a _ => a < 2 ^ s.par.inAW
  | .readOut a => a < 4 * s.par.outCap
  | .writeOut a _ => !s.seq.busy && a < 4 * s.par.outCap

/-- The next move is the block's, the reset input's, or a host operation that is allowed. -/
def State.nextMoveAllowed (s : State) : Bool :=
  match s.moves with
  | .host op :: _ => op.allowed s
  | .block :: _ => true
  | .reset :: _ => true
  | [] => true

end Sys2Proof.Machine
end

