-- ==== Sys2Proof/Certificates/Slice0/Obligations.lean ====
section
/-! DEFINITION. The statements about the machine. Each docstring names the rule of the spec it formalises, or says what it is
derived from. -/

open Sys2Proof Sys2Proof.Machine

/-! ## Reset and the invariants -/

/-- R30, the table of reset values: the configuration registers, `STATUS`, `IP`, `OP`, `TOTAL`, `PKT_CNT` and `PKT_RUN` are 0, no
byte of `PAL` or `OUT` has a known value, and nothing happens until the host acts. (`PX` is unspecified: nothing is said of it.) -/
def Obligations.ResetLeavesTheSpecValues : Prop :=
  (∀ n, State.reset.readReg n = 0) ∧ State.reset.seq = .idle ∧ State.reset.err = .none ∧ State.reset.ovr = false
  ∧ State.reset.total = 0 ∧ State.reset.pktCnt = 0 ∧ State.reset.pktRun = false
  ∧ (∀ a, State.reset.palMem.get? a = none) ∧ (∀ a, State.reset.outMem.get? a = none)
  ∧ step State.reset = .next State.reset

/-- Reset is one atomic event available in every state (R160), after which the block's state has the values of R30. Derived from R160
and R30; that `IN`, which is not the block's, keeps its bytes is the model's reading (log entry 13). -/
def Obligations.ResetIsAvailableInEveryState : Prop :=
  ∀ s : State, ∃ t, takeMove .reset s = .next t
    ∧ (∀ n, t.readReg n = 0) ∧ t.seq = .idle ∧ t.err = .none ∧ t.ovr = false ∧ t.total = 0 ∧ t.pktCnt = 0 ∧ t.pktRun = false
    ∧ (∀ a, t.palMem.get? a = none) ∧ (∀ a, t.outMem.get? a = none) ∧ t.inMem = s.inMem

/-- The invariants of R31 (and the widths and sizes) hold at reset. Derived. -/
def Obligations.ResetMeetsTheInvariants : Prop := Inv State.reset

/-- Every step keeps the invariants of R31, whoever moves: the block, the host, or reset. Derived from R31. -/
def Obligations.EveryStepKeepsTheInvariants : Prop :=
  ∀ s t : State, Inv s → step s = .next t → Inv t

/-- From a state that meets the invariants no step stops: no fault and no refusal, whatever the bytes in the memories are, unless
the host makes a move it is forbidden or names an address that does not exist. Derived from R67, R81 and R120. That a byte with no
known value is some value, instead of the fault that U3 prefers, is the model's choice (log entries 4 and 5), and so are the stops of
the forbidden moves (log entry 7). -/
def Obligations.InvariantStatesNeverStop : Prop :=
  ∀ s : State, Inv s → s.nextMoveAllowed → ∃ t, step s = .next t

/-! ## Encoding -/

/-- Decoding the encoding of a well-formed instruction gives it back, with every operand, whatever follows. Derived from R61,
R63, R65 and R23. -/
def Obligations.DecodeOfEncodeIsTheInstruction : Prop :=
  ∀ (i : Instr) (rest : List Byte), i.wf → decode i.kind (encode i ++ rest) = .ok (i, rest)

/-- An item of the stream or of the palette has one encoding: its instruction encodes to the very bytes it was read from. (A write
of `CMD` is left out: bits above its width are dropped.) Derived from R61, R63 and R65. -/
def Obligations.EncodeOfDecodeIsTheBytes : Prop :=
  ∀ (k : ItemKind) (bs : List Byte) (i : Instr) (rest : List Byte),
    k ≠ .command → decode k bs = .ok (i, rest) → encode i ++ rest = bs ∧ i.kind = k

/-- Whatever decodes is well-formed; an item of the stream or of the palette decodes whenever it has all its bytes; a write of `CMD`
whose low two bits are 1 or 2 decodes. Derived from R67 and R23. R23 lists the values 0 to 3 only: that the values above them act
on their low two bits is the model's choice (log entry 9). -/
def Obligations.DecoderIsTotalAndWellFormed : Prop :=
  (∀ (k : ItemKind) (bs : List Byte) (i : Instr) (rest : List Byte), decode k bs = .ok (i, rest) → i.wf)
  ∧ (∀ (k : ItemKind) (bs : List Byte), k ≠ .command → k.bytes ≤ bs.length → ∃ i rest, decode k bs = .ok (i, rest))
  ∧ (∀ (c : Byte) (rest : List Byte), c.toNat % 4 = 1 ∨ c.toNat % 4 = 2 → ∃ i, decode .command (c :: rest) = .ok (i, rest))

/-- R61: bit 7 of a header byte is the packet type, bits 6:0 are the count minus 1. -/
def Obligations.HeaderByteSaysKindAndCount : Prop :=
  ∀ (h : Byte) (rest : List Byte),
    (128 ≤ h.toNat → decode .header (h :: rest) = .ok (.run (h.toNat - 128 + 1), rest))
    ∧ (h.toNat < 128 → decode .header (h :: rest) = .ok (.lit (h.toNat + 1), rest))

/-- Words written out from the spec's encodings decode to the instructions they stand for (95_test_vectors.md 2.1, 2.2). Derived
from R61, R63, R65 and R23; a sanity statement. -/
def Obligations.SpecWordsDecode : Prop :=
  decode .header [0x82] = .ok (.run 3, []) ∧ decode .header [0x7F] = .ok (.lit 128, [])
  ∧ decode (.pixel .true32) [0x11, 0x22, 0x33, 0x44] = .ok (.pxTrue32 0x11 0x22 0x33 0x44, [])
  ∧ decode (.pixel .true16) [0x00, 0x7C] = .ok (.pxTrue16 0 0 31 0, [])
  ∧ decode (.rawPixel .mono16) [0x80, 0x40] = .ok (.rawpx (.mono16 0x80 0x40), [])
  ∧ decode (.palEntry .pe16) [0xE0, 0x83] = .ok (.pe16 0 31 0 1, [])
  ∧ decode .command [1] = .ok (.start, []) ∧ decode .command [2] = .ok (.clear, [])

/-! ## A step runs the decoded instruction -/

/-- Who moves: the next move of `moves` is used up, and the block moves when none is left. Derived from R10; that the moves are
given as a list is the model's choice (log entry 6). -/
def Obligations.StepTakesTheNextMove : Prop :=
  ∀ s : State, (s.moves = [] → step s = blockStep s)
    ∧ ∀ m rest, s.moves = m :: rest →
      (m = .block → step s = blockStep { s with moves := rest })
      ∧ (m = .reset → step s = .next { s with moves := rest }.resetEvent)
      ∧ (∀ op, m = .host op → step s = hostOp op { s with moves := rest })

/-- A step of the block runs the instruction that the bytes at `IP` decode to, in the context the state and the configuration give
(R60); around it stands only the count of free values that the fetch has used. In IDLE, DONE and ERR the block waits. Derived
from R60, R80 and R81. -/
def Obligations.BlockStepRunsTheDecodedItem : Prop :=
  ∀ (s : State) (i : Instr) (rest : List Byte),
    (s.seq = .hdr → s.ip + 1 ≤ s.cfg.inLen → decode .header (s.fetch 1).1 = .ok (i, rest) →
      blockStep s = exec i { s with draws := (s.fetch 1).2 })
    ∧ (∀ f, s.seq = .pix → s.cfg.format = some f → s.cfg.rle = true → s.ip + f.bytes ≤ s.cfg.inLen →
      decode (.pixel f) (s.fetch f.bytes).1 = .ok (i, rest) → blockStep s = exec i { s with draws := (s.fetch f.bytes).2 })
    ∧ (∀ f, s.seq = .pix → s.cfg.format = some f → s.cfg.rle = false → s.ip + f.bytes ≤ s.cfg.inLen →
      decode (.rawPixel f) (s.fetch f.bytes).1 = .ok (i, rest) → blockStep s = exec i { s with draws := (s.fetch f.bytes).2 })
    ∧ (s.seq = .idle ∨ s.seq = .done ∨ s.seq = .err → blockStep s = .next s)

/-- What a fetch sees: the bytes of `IN` from `IP` on, in address order, when they have been written and the host has kept its
hands off the run's data. Derived from R40 and R54. -/
def Obligations.FetchReadsInInAddressOrder : Prop :=
  ∀ (s : State) (bs : List Byte), s.inStale = false → (∀ k, k < bs.length → s.inMem.get? (s.ip + k) = bs[k]?) →
    s.fetch bs.length = (bs, s.draws)

/-- R23: a write of `CMD` performs START for 1 and CLEAR for 2, does nothing for 0 and 3, and `CMD` reads 0. -/
def Obligations.CommandRegisterPerformsItsValue : Prop :=
  ∀ s : State, hostOp (.writeReg 10 1) s = exec .start s ∧ hostOp (.writeReg 10 2) s = exec .clear s
    ∧ hostOp (.writeReg 10 0) s = .next s ∧ hostOp (.writeReg 10 3) s = .next s ∧ s.readReg 10 = 0

/-! ## The packet headers -/

/-- R83: the HDR step. -/
def Obligations.HdrStepFetchesAHeader : Prop :=
  ∀ (s : State) (h : Byte), s.seq = .hdr →
    (s.cfg.inLen ≤ s.ip → blockStep s = .next { s with err := .eTrunc, seq := .err })
    ∧ (s.ip < s.cfg.inLen → s.inStale = false → s.inMem.get? s.ip = some h →
      blockStep s = .next { s with
        ip := s.ip + 1
        pktRun := decide (128 ≤ h.toNat)
        pktCnt := BitVec.ofNat 8 (h.toNat % 128 + 1)
        seq := .pix })

/-- `RUN` and `LIT` complete in state `HDR` when the header byte exists, and write the packet's kind and count; without the byte
they raise `E_TRUNC`. Nothing else changes, so no byte of any memory does. Derived from R83. R89 and R90 give the two items as whole
packets: that the instruction is their HDR step alone is the model's choice (log entry 11), and the whole packets are
`RunPacketRepeatsItsPixel` and `LitPacketCopiesItsPixels`. -/
def Obligations.PacketHeadersComplete : Prop :=
  ∀ (s : State) (c : Nat), s.seq = .hdr → 1 ≤ c → c ≤ 128 →
    (s.ip + 1 ≤ s.cfg.inLen →
      (∃ t, exec (.run c) s = .next t ∧ t.pktCnt.toNat = c
        ∧ t = { s with ip := s.ip + 1, pktRun := true, pktCnt := t.pktCnt, seq := .pix })
      ∧ (∃ t, exec (.lit c) s = .next t ∧ t.pktCnt.toNat = c
        ∧ t = { s with ip := s.ip + 1, pktRun := false, pktCnt := t.pktCnt, seq := .pix }))
    ∧ (s.cfg.inLen < s.ip + 1 →
      exec (.run c) s = .next { s with err := .eTrunc, seq := .err }
      ∧ exec (.lit c) s = .next { s with err := .eTrunc, seq := .err })

/-! ## The pixel formats -/

/-- R101. -/
def Obligations.PxTrue32Completes : Prop :=
  ∀ (s : State) (b g r a : Byte), PixelReady .true32 s →
    ∃ t, exec (.pxTrue32 b g r a) s = .next t ∧ Delivered ⟨r, g, b, if s.cfg.hasAlpha = 1 then a else 0xFF⟩ 4 s t

/-- R102 and R105, the two formats that have no alpha. -/
def Obligations.PxTrue24AndMono8Complete : Prop :=
  (∀ (s : State) (b g r : Byte), PixelReady .true24 s →
    ∃ t, exec (.pxTrue24 b g r) s = .next t ∧ Delivered ⟨r, g, b, 0xFF⟩ 3 s t)
  ∧ ∀ (s : State) (y : Byte), PixelReady .mono8 s → ∃ t, exec (.pxMono8 y) s = .next t ∧ Delivered ⟨y, y, y, 0xFF⟩ 1 s t

/-- R103, with `scale5` of R110 written out. -/
def Obligations.PxTrue16Completes : Prop :=
  ∀ (s : State) (b g r : BitVec 5) (ind : BitVec 1), PixelReady .true16 s →
    ∃ t, exec (.pxTrue16 b g r ind) s = .next t
      ∧ Delivered ⟨BitVec.ofNat 8 (8 * r.toNat + r.toNat / 4), BitVec.ofNat 8 (8 * g.toNat + g.toNat / 4),
          BitVec.ofNat 8 (8 * b.toNat + b.toNat / 4), if s.cfg.hasAlpha = 1 ∧ ind = 0 then 0x00 else 0xFF⟩ 2 s t

/-- R104. -/
def Obligations.PxMono16Completes : Prop :=
  ∀ (s : State) (y a : Byte), PixelReady .mono16 s →
    ∃ t, exec (.pxMono16 y a) s = .next t ∧ Delivered ⟨y, y, y, if s.cfg.hasAlpha = 1 then a else 0xFF⟩ 2 s t

/-- An index below `PAL_COUNT` selects the entry of `EW` bytes at `idx * EW`, whose colour is delivered; an index that is not below
`PAL_COUNT` raises `E_PALIDX`. Derived from R106. That the colour is delivered even where the host has not written those bytes, each
of which is then a free value, is the model's choice (log entries 4 and 5; U3 prefers a fault). -/
def Obligations.PxPal8SelectsItsEntry : Prop :=
  ∀ (s : State) (i : Byte) (f : PalFmt), PixelReady .pal8 s → s.cfg.palFormat = some f →
    (i.toNat < s.cfg.palCount.toNat →
      ∃ e t, decodeEntry f (readBytes s.palMem.get? f.bytes (i.toNat * f.bytes) s.draws).1 = .ok (e, [])
        ∧ exec (.pxPal8 i) s = .next t
        ∧ Delivered (expandEntry s.cfg.alpha e) 1
            { s with draws := (readBytes s.palMem.get? f.bytes (i.toNat * f.bytes) s.draws).2 } t)
    ∧ (s.cfg.palCount.toNat ≤ i.toNat → exec (.pxPal8 i) s = .next { s with err := .ePalIdx, seq := .err })

/-- What a paletted pixel reads and delivers, byte by byte, for the three entry layouts, 15 bits as 16 (R106 with R107, R108 and
R109; the use of the 16-bit layout for 15 is the spec's own decision D9). Derived. -/
def Obligations.PxPal8DeliversTheEntryBytes : Prop :=
  ∀ (s : State) (i e0 e1 e2 e3 : Byte), PixelReady .pal8 s → i.toNat < s.cfg.palCount.toNat →
    (s.cfg.palBpp = 24 → s.palMem.get? (3 * i.toNat) = some e0 → s.palMem.get? (3 * i.toNat + 1) = some e1 →
      s.palMem.get? (3 * i.toNat + 2) = some e2 →
      ∃ t, exec (.pxPal8 i) s = .next t ∧ Delivered ⟨e2, e1, e0, 0xFF⟩ 1 s t)
    ∧ (s.cfg.palBpp = 32 → s.palMem.get? (4 * i.toNat) = some e0 → s.palMem.get? (4 * i.toNat + 1) = some e1 →
      s.palMem.get? (4 * i.toNat + 2) = some e2 → s.palMem.get? (4 * i.toNat + 3) = some e3 →
      ∃ t, exec (.pxPal8 i) s = .next t ∧ Delivered ⟨e2, e1, e0, if s.cfg.hasAlpha = 1 then e3 else 0xFF⟩ 1 s t)
    ∧ (s.cfg.palBpp = 16 ∨ s.cfg.palBpp = 15 → s.palMem.get? (2 * i.toNat) = some e0 →
      s.palMem.get? (2 * i.toNat + 1) = some e1 →
      ∃ t, exec (.pxPal8 i) s = .next t
        ∧ Delivered ⟨scale5 (BitVec.ofNat 5 ((e0.toNat + 256 * e1.toNat) / 1024)),
            scale5 (BitVec.ofNat 5 ((e0.toNat + 256 * e1.toNat) / 32)), scale5 (BitVec.ofNat 5 (e0.toNat + 256 * e1.toNat)),
            0xFF⟩ 1 s t)

/-- The entry's colour, as R107 gives it, is what the paletted pixel delivers. Derived from R107: that the instruction is the rest of
the PIX step from the entry on, which advances `IP` past the index byte and delivers, is the model's choice (log entry 12). -/
def Obligations.Pe24Completes : Prop :=
  ∀ (s : State) (b g r : Byte), PixelReady .pal8 s → s.cfg.palBpp = 24 →
    ∃ t, exec (.pe24 b g r) s = .next t ∧ Delivered ⟨r, g, b, 0xFF⟩ 1 s t

/-- The entry's colour, as R108 gives it, is what the paletted pixel delivers. Derived from R108: that the instruction is the rest of
the PIX step from the entry on is the model's choice (log entry 12). -/
def Obligations.Pe32Completes : Prop :=
  ∀ (s : State) (b g r a : Byte), PixelReady .pal8 s → s.cfg.palBpp = 32 →
    ∃ t, exec (.pe32 b g r a) s = .next t ∧ Delivered ⟨r, g, b, if s.cfg.hasAlpha = 1 then a else 0xFF⟩ 1 s t

/-- The entry's colour, as R109 gives it (bit 15 and `HAS_ALPHA` do not matter), is what the paletted pixel delivers. Derived from R109,
and for 15-bit entries from the spec's decision D9, which gives them the 16-bit layout. That the instruction is the rest of the PIX
step from the entry on is the model's choice (log entry 12). -/
def Obligations.Pe16Completes : Prop :=
  ∀ (s : State) (b g r : BitVec 5) (x : BitVec 1), PixelReady .pal8 s → s.cfg.palBpp = 16 ∨ s.cfg.palBpp = 15 →
    ∃ t, exec (.pe16 b g r x) s = .next t
      ∧ Delivered ⟨BitVec.ofNat 8 (8 * r.toNat + r.toNat / 4), BitVec.ofNat 8 (8 * g.toNat + g.toNat / 4),
          BitVec.ofNat 8 (8 * b.toNat + b.toNat / 4), 0xFF⟩ 1 s t

/-- R86: in raw mode a pixel of any format is emitted, `PKT_CNT`, `PKT_RUN` and `PX` untouched; too few bytes raise `E_TRUNC`, an
index out of range `E_PALIDX`. What a pixel expands to is the same in both modes. -/
def Obligations.RawpxEmitsItsPixel : Prop :=
  ∀ (s : State) (p : Pixel), s.cfg.rle = false → s.seq = .pix → s.cfg.format = some p.fmt → s.op.toNat < s.par.outCap →
    exec (.rawpx p) s = exec p.toInstr s
    ∧ (s.cfg.inLen < s.ip + p.fmt.bytes → exec (.rawpx p) s = .next { s with err := .eTrunc, seq := .err })
    ∧ (s.ip + p.fmt.bytes ≤ s.cfg.inLen → expand p s = .badIndex →
      exec (.rawpx p) s = .next { s with err := .ePalIdx, seq := .err })
    ∧ (s.ip + p.fmt.bytes ≤ s.cfg.inLen → (∀ i, p = .pal8 i → i.toNat < s.cfg.palCount.toNat ∧ s.cfg.palFormat ≠ none) →
      ∃ px d t, expand p s = .pixel px d ∧ exec (.rawpx p) s = .next t
        ∧ Emitted px { s with ip := s.ip + p.fmt.bytes, draws := d } t
        ∧ t.pktCnt = s.pktCnt ∧ t.pktRun = s.pktRun ∧ t.px = s.px ∧ t.ovr = s.ovr)

/-- R110: `scale5(c)` is `8 * c + floor(c / 4)`, and its bits are those of `c` followed by the top three of `c`. -/
def Obligations.Scale5IsBitReplication : Prop :=
  ∀ c : BitVec 5, (scale5 c).toNat = 8 * c.toNat + c.toNat / 4
    ∧ (scale5 c).extractLsb' 3 5 = c ∧ (scale5 c).extractLsb' 0 3 = c.extractLsb' 2 3

/-- `HAS_ALPHA` never changes a colour byte, and `PX.TRUE24`, `PX.MONO8`, `PE.24` and `PE.16` are opaque whatever its value. Derived
from R101 to R109 (R112). -/
def Obligations.HasAlphaOnlyGatesAlpha : Prop :=
  (∀ (p : Pixel) (s : State) (v : BitVec 1), p.fmt ≠ .pal8 → ∃ x y, expand p s = .pixel x s.draws
    ∧ expand p { s with cfg := { s.cfg with hasAlpha := v } } = .pixel y s.draws ∧ x.r = y.r ∧ x.g = y.g ∧ x.b = y.b
    ∧ (p.fmt = .true24 ∨ p.fmt = .mono8 → x.a = 0xFF ∧ y.a = 0xFF))
  ∧ (∀ (e : PalEntry) (u v : Bool), (expandEntry u e).r = (expandEntry v e).r ∧ (expandEntry u e).g = (expandEntry v e).g
    ∧ (expandEntry u e).b = (expandEntry v e).b ∧ (e.fmt = .pe24 ∨ e.fmt = .pe16 → (expandEntry u e).a = 0xFF))

/-! ## The block's steps as a whole -/

/-- R87: the REP step emits the held pixel; it reads no memory, moves no pointer but `OP`, and raises nothing. -/
def Obligations.RepStepEmitsTheHeldPixel : Prop :=
  ∀ s : State, s.seq = .rep → s.op.toNat < s.par.outCap → ∃ t, blockStep s = .next t ∧ Emitted s.px s t

/-- The transitions of a busy block (R80): from `HDR` by whether the header byte exists; from `PIX` by the two error events, and without
them by mode, packet kind, last pixel and packet end; from `REP` by last pixel and packet end. Derived: the table's rows for the
block's own steps. -/
def Obligations.BlockFollowsTheTransitionTable : Prop :=
  ∀ s t : State, Inv s → blockStep s = .next t →
    (s.seq = .hdr → t.seq = if s.cfg.inLen ≤ s.ip then .err else .pix)
    ∧ (s.seq = .pix →
      (s.cfg.inLen < s.ip + s.cfg.bytes → t.seq = .err)
      ∧ (s.ip + s.cfg.bytes ≤ s.cfg.inLen →
        ((s.cfg.imgType = 1#2 ∧ ∃ b, (s.fetch 1).1 = [b] ∧ s.cfg.palCount.toNat ≤ b.toNat) → t.seq = .err)
        ∧ (¬ (s.cfg.imgType = 1#2 ∧ ∃ b, (s.fetch 1).1 = [b] ∧ s.cfg.palCount.toNat ≤ b.toNat) →
          t.seq = if s.cfg.rle = true ∧ s.pktRun = true then .rep
            else if s.op.toNat + 1 = s.total.toNat then .done
            else if s.cfg.rle = true ∧ s.pktCnt.toNat = 1 then .hdr
            else .pix)))
    ∧ (s.seq = .rep → t.seq = if s.op.toNat + 1 = s.total.toNat then .done else if s.pktCnt.toNat = 1 then .hdr else .rep)
    ∧ (s.seq.busy = false → t = s)

/-- What a step of the block may touch: no configuration register, no byte of `IN` or `PAL`, of `OUT` only the four bytes at
`4 * OP` and those only in a step that advances `OP`, and `IP` only forwards by the item's length. Derived from R14, R44 and R128. -/
def Obligations.BlockStepTouchesOnlyItsPixel : Prop :=
  ∀ s t : State, blockStep s = .next t →
    t.cfg = s.cfg ∧ t.par = s.par ∧ t.inMem = s.inMem ∧ t.palMem = s.palMem ∧ t.total = s.total ∧ t.moves = s.moves
    ∧ t.rdata = s.rdata ∧ t.inStale = s.inStale
    ∧ (t.ip = s.ip ∨ (s.seq = .hdr ∧ t.ip = s.ip + 1) ∨ (s.seq = .pix ∧ t.ip = s.ip + s.cfg.bytes))
    ∧ (t.op = s.op ∨ t.op = s.op + 1#32)
    ∧ (t.op = s.op → t.outMem = s.outMem)
    ∧ ∀ a, (a < 4 * s.op.toNat ∨ 4 * s.op.toNat + 4 ≤ a) → t.outMem.get? a = s.outMem.get? a

/-- `STATUS.OVR` is set by the step that emits the last pixel in run-length mode while the packet has pixels left, and by no other.
Derived from R17 and R91. -/
def Obligations.OverrunFlagIsSetExactly : Prop :=
  ∀ s t : State, Inv s → s.seq.busy → blockStep s = .next t →
    (t.ovr = true ↔ t.seq = .done ∧ s.cfg.rle = true ∧ 2 ≤ s.pktCnt.toNat)

/-- Every step of a busy block lowers the measure of R181, which is at least 1 there. Derived from R181. -/
def Obligations.BlockStepLowersTheMeasure : Prop :=
  ∀ s : State, Inv s → s.seq.busy → 1 ≤ s.mu ∧ ∃ t, blockStep s = .next t ∧ t.mu < s.mu

/-- A busy block left alone ends its run, in DONE or ERR, after at most `mu` steps, and in raw mode after at most as many as there
are pixels left. Derived from R81 and R181. -/
def Obligations.RunEndsWithinTheBound : Prop :=
  ∀ s : State, Inv s → s.seq.busy → s.moves = [] →
    ∃ (k : Nat) (t : State), Sys2Proof.core.run k s = .next t ∧ (t.seq = .done ∨ t.seq = .err) ∧ k ≤ s.mu
      ∧ (s.cfg.rle = false → k ≤ s.total.toNat - s.op.toNat)

/-- A run that START begins ends in DONE or ERR after at most `3 * TOTAL` steps in run-length mode and at most `TOTAL` in raw mode.
Derived from R124 and R181. -/
def Obligations.StartedRunEnds : Prop :=
  ∀ s t : State, Inv s → s.seq = .idle → s.cfg.legal s.par → s.moves = [] → exec .start s = .next t →
    ∃ (k : Nat) (u : State), Sys2Proof.core.run k t = .next u ∧ (u.seq = .done ∨ u.seq = .err)
      ∧ k ≤ (if s.cfg.rle then 3 else 1) * (s.cfg.width.toNat * s.cfg.height.toNat)

/-- The encoded packet as a whole (R89), where no error is raised: `min(n, TOTAL - OP)` copies of the one pixel, and the end of
the packet or of the image. Derived, as R89 itself is. The forms that raise an error are those of `TruncationIsRaisedExactly`,
`PaletteIndexErrorIsRaisedExactly` and `ErrorEntryWritesOnlyStatus`. -/
def Obligations.RunPacketRepeatsItsPixel : Prop :=
  ∀ (s : State) (h : Byte) (f : PixFmt) (bs : List Byte) (p : Pixel) (px : Rgba) (d : Nat),
    Inv s → s.moves = [] → s.inStale = false → s.seq = .hdr → s.cfg.format = some f →
    s.inMem.get? s.ip = some h → 128 ≤ h.toNat → s.ip + 1 + f.bytes ≤ s.cfg.inLen →
    bs.length = f.bytes → (∀ k, k < f.bytes → s.inMem.get? (s.ip + 1 + k) = bs[k]?) →
    decodePixel f bs = .ok (p, []) → expand p s = .pixel px d →
    ∃ (t : State) (m : Nat), m = min (h.toNat - 127) (s.total.toNat - s.op.toNat)
      ∧ Sys2Proof.core.run (2 + m) s = .next t
      ∧ t.ip = s.ip + 1 + f.bytes ∧ t.op.toNat = s.op.toNat + m ∧ t.pktRun = true ∧ t.px = px ∧ t.draws = d
      ∧ t.pktCnt.toNat = h.toNat - 127 - m
      ∧ (s.op.toNat + m = s.total.toNat → t.seq = .done ∧ (t.ovr = true ↔ m < h.toNat - 127))
      ∧ (s.op.toNat + m ≠ s.total.toNat → t.seq = .hdr ∧ t.ovr = false)
      ∧ (∀ k, k < m → t.outMem.get? (4 * (s.op.toNat + k)) = some px.r ∧ t.outMem.get? (4 * (s.op.toNat + k) + 1) = some px.g
        ∧ t.outMem.get? (4 * (s.op.toNat + k) + 2) = some px.b ∧ t.outMem.get? (4 * (s.op.toNat + k) + 3) = some px.a)
      ∧ (∀ a, a < 4 * s.op.toNat ∨ 4 * (s.op.toNat + m) ≤ a → t.outMem.get? a = s.outMem.get? a)
      ∧ t = { s with ip := t.ip, op := t.op, pktRun := t.pktRun, pktCnt := t.pktCnt, px := t.px, seq := t.seq, ovr := t.ovr,
                     outMem := t.outMem, draws := t.draws }

/-- The raw packet as a whole (R90), where no error is raised: `min(n, TOTAL - OP)` pixels are read and written one by one, and
no byte after them is needed. A palette entry's byte that has no known value is a free value (log entries 4 and 5): `d k` counts the
free values that the first `k` pixels have used. Derived, as R90 itself is. The forms that raise an error are those of
`TruncationIsRaisedExactly`, `PaletteIndexErrorIsRaisedExactly` and `ErrorEntryWritesOnlyStatus`. -/
def Obligations.LitPacketCopiesItsPixels : Prop :=
  ∀ (s : State) (h : Byte) (f : PixFmt) (bs : Nat → List Byte) (p : Nat → Pixel) (px : Nat → Rgba) (d : Nat → Nat)
    (m : Nat),
    Inv s → s.moves = [] → s.inStale = false → s.seq = .hdr → s.cfg.format = some f →
    s.inMem.get? s.ip = some h → h.toNat < 128 → m = min (h.toNat + 1) (s.total.toNat - s.op.toNat) →
    s.ip + 1 + m * f.bytes ≤ s.cfg.inLen → d 0 = s.draws →
    (∀ k, k < m → (bs k).length = f.bytes ∧ (∀ j, j < f.bytes → s.inMem.get? (s.ip + 1 + k * f.bytes + j) = (bs k)[j]?)
      ∧ decodePixel f (bs k) = .ok (p k, []) ∧ expand (p k) { s with draws := d k } = .pixel (px k) (d (k + 1))) →
    ∃ t : State, Sys2Proof.core.run (1 + m) s = .next t
      ∧ t.ip = s.ip + 1 + m * f.bytes ∧ t.op.toNat = s.op.toNat + m ∧ t.pktRun = false ∧ t.pktCnt.toNat = h.toNat + 1 - m
      ∧ t.draws = d m
      ∧ (s.op.toNat + m = s.total.toNat → t.seq = .done ∧ (t.ovr = true ↔ m < h.toNat + 1))
      ∧ (s.op.toNat + m ≠ s.total.toNat → t.seq = .hdr ∧ t.ovr = false)
      ∧ (∀ k, k < m → t.outMem.get? (4 * (s.op.toNat + k)) = some (px k).r
        ∧ t.outMem.get? (4 * (s.op.toNat + k) + 1) = some (px k).g
        ∧ t.outMem.get? (4 * (s.op.toNat + k) + 2) = some (px k).b ∧ t.outMem.get? (4 * (s.op.toNat + k) + 3) = some (px k).a)
      ∧ (∀ a, a < 4 * s.op.toNat ∨ 4 * (s.op.toNat + m) ≤ a → t.outMem.get? a = s.outMem.get? a)
      ∧ t = { s with ip := t.ip, op := t.op, pktRun := t.pktRun, pktCnt := t.pktCnt, seq := t.seq, ovr := t.ovr,
                     outMem := t.outMem, draws := t.draws }

/-- Raw mode as a whole (R86, R92), where no error is raised: the pixels that are left are read and written one by one until the
image is complete. A palette entry's byte that has no known value is a free value (log entries 4 and 5): `d k` counts the free values
that the first `k` pixels have used. Derived. The forms that raise an error are those of `TruncationIsRaisedExactly`,
`PaletteIndexErrorIsRaisedExactly` and `ErrorEntryWritesOnlyStatus`. -/
def Obligations.RawRunCopiesItsPixels : Prop :=
  ∀ (s : State) (f : PixFmt) (bs : Nat → List Byte) (p : Nat → Pixel) (px : Nat → Rgba) (d : Nat → Nat)
    (m : Nat),
    Inv s → s.moves = [] → s.inStale = false → s.seq = .pix → s.cfg.rle = false → s.cfg.format = some f →
    m = s.total.toNat - s.op.toNat → s.ip + m * f.bytes ≤ s.cfg.inLen → d 0 = s.draws →
    (∀ k, k < m → (bs k).length = f.bytes ∧ (∀ j, j < f.bytes → s.inMem.get? (s.ip + k * f.bytes + j) = (bs k)[j]?)
      ∧ decodePixel f (bs k) = .ok (p k, []) ∧ expand (p k) { s with draws := d k } = .pixel (px k) (d (k + 1))) →
    ∃ t : State, Sys2Proof.core.run m s = .next t ∧ t.seq = .done ∧ t.ip = s.ip + m * f.bytes ∧ t.op = s.total
      ∧ t.draws = d m
      ∧ (∀ k, k < m → t.outMem.get? (4 * (s.op.toNat + k)) = some (px k).r
        ∧ t.outMem.get? (4 * (s.op.toNat + k) + 1) = some (px k).g
        ∧ t.outMem.get? (4 * (s.op.toNat + k) + 2) = some (px k).b ∧ t.outMem.get? (4 * (s.op.toNat + k) + 3) = some (px k).a)
      ∧ (∀ a, a < 4 * s.op.toNat ∨ 4 * s.total.toNat ≤ a → t.outMem.get? a = s.outMem.get? a)
      ∧ t = { s with ip := t.ip, op := t.op, seq := t.seq, outMem := t.outMem, draws := t.draws }

/-! ## Errors -/

/-- R142: a step of the block raises `E_TRUNC` exactly when the item it needs does not lie wholly below `IN_LEN`, and then nothing
but `STATUS` changes. -/
def Obligations.TruncationIsRaisedExactly : Prop :=
  ∀ s t : State, Inv s → s.seq.busy → blockStep s = .next t →
    (t.err = .eTrunc ↔ (s.seq = .hdr ∧ s.cfg.inLen ≤ s.ip) ∨ (s.seq = .pix ∧ s.cfg.inLen < s.ip + s.cfg.bytes))
    ∧ (t.err = .eTrunc → t = { s with err := .eTrunc, seq := .err })

/-- R143: a step of the block raises `E_PALIDX` exactly for a paletted pixel whose byte exists and is not below `PAL_COUNT`; `IP`
and `OP` stay, and nothing is written to any memory. -/
def Obligations.PaletteIndexErrorIsRaisedExactly : Prop :=
  ∀ s t : State, Inv s → s.seq.busy → blockStep s = .next t →
    (t.err = .ePalIdx ↔ s.seq = .pix ∧ s.cfg.imgType = 1#2 ∧ s.ip + 1 ≤ s.cfg.inLen
      ∧ ∃ b, (s.fetch 1).1 = [b] ∧ s.cfg.palCount.toNat ≤ b.toNat)
    ∧ (t.err = .ePalIdx → t = { s with err := .ePalIdx, seq := .err, draws := (s.fetch 1).2 })

/-- R141: only START raises `E_CFG`, in IDLE and on an illegal configuration, with no state of the run initialised; no item raises
it, nor any step of the block. -/
def Obligations.OnlyStartRaisesConfigurationError : Prop :=
  ∀ (i : Instr) (s t : State), exec i s = .next t → s.err ≠ .eCfg →
    (t.err = .eCfg ↔ i = .start ∧ s.seq = .idle ∧ s.cfg.legal s.par = false)
    ∧ (t.err = .eCfg → t = { s with err := .eCfg, seq := .err })
    ∧ ∀ u, blockStep s = .next u → u.err ≠ .eCfg

/-- R145: whatever instruction or step of the block enters the error state, only `STATUS.ERR` and `STATUS.STATE` change, and the
cause is one of the three of R140. (`draws` is the model's own count of free values.) -/
def Obligations.ErrorEntryWritesOnlyStatus : Prop :=
  (∀ (i : Instr) (s t : State), exec i s = .next t → s.seq ≠ .err → t.seq = .err →
    (t.err = .eCfg ∨ t.err = .eTrunc ∨ t.err = .ePalIdx) ∧ t = { s with err := t.err, seq := .err })
  ∧ ∀ s t : State, blockStep s = .next t → s.seq ≠ .err → t.seq = .err →
    (t.err = .eTrunc ∨ t.err = .ePalIdx) ∧ t = { s with err := t.err, seq := .err, draws := t.draws }

/-- R147: in ERR the block takes no step, no instruction but CLEAR changes anything, no host operation but a write of CLEAR leaves
the state or changes the cause, and CLEAR goes to IDLE with the cause cleared. -/
def Obligations.OnlyClearLeavesTheErrorState : Prop :=
  ∀ s : State, s.seq = .err →
    blockStep s = .next s
    ∧ (∀ i t, i ≠ .clear → exec i s = .next t → t = s)
    ∧ (∀ op t, (∀ v, op = .writeReg 10 v → v % 4 ≠ 2) → hostOp op s = .next t → t.seq = .err ∧ t.err = s.err)
    ∧ exec .start s = .next s
    ∧ exec .clear s = .next { s with seq := .idle, err := .none, ovr := false }

/-- Where the model stops by name. An item taken in a state in which the sequencer does not take it is refused. A paletted pixel, in
either mode, of a configuration with no entry format faults, and so does a PIX step of a configuration with no pixel format. A step
that emits with no place in `OUT` faults: a REP step, and a pixel or entry that is not to be held. A host access at an address that
does not exist faults, and a host write of `OUT` while BUSY is refused. No state that meets the invariants offers a step of the block
any of them (`InvariantStatesNeverStop`). The model's choice, log entry 7. Derived from R26, R28, R80, R81, R100 and R120. -/
def Obligations.ItemsThatAreNotTakenStop : Prop :=
  ∀ s : State,
    (∀ c, s.seq ≠ .hdr → exec (.run c) s = .refused .notEnabled ∧ exec (.lit c) s = .refused .notEnabled)
    ∧ (∀ p : Pixel, s.seq ≠ .pix ∨ s.cfg.format ≠ some p.fmt →
      exec p.toInstr s = .refused .notEnabled ∧ exec (.rawpx p) s = .refused .notEnabled)
    ∧ (∀ p : Pixel, s.cfg.rle = true → exec (.rawpx p) s = .refused .notEnabled)
    ∧ (∀ e : PalEntry, s.seq ≠ .pix ∨ s.cfg.format ≠ some .pal8 ∨ s.cfg.palFormat ≠ some e.fmt →
      exec e.toInstr s = .refused .notEnabled)
    ∧ (∀ i : Byte, s.seq = .pix → s.cfg.format = some .pal8 → s.ip + 1 ≤ s.cfg.inLen → i.toNat < s.cfg.palCount.toNat →
      s.cfg.palFormat = none →
      exec (.pxPal8 i) s = .fault .noFormat ∧ (s.cfg.rle = false → exec (.rawpx (.pal8 i)) s = .fault .noFormat))
    ∧ (s.seq = .pix → s.cfg.format = none → blockStep s = .fault .noFormat)
    ∧ (s.par.outCap ≤ s.op.toNat →
      (s.seq = .rep → blockStep s = .fault .outAddress)
      ∧ (∀ (p : Pixel) (px : Rgba) (d : Nat), s.seq = .pix → s.cfg.format = some p.fmt → s.ip + p.fmt.bytes ≤ s.cfg.inLen →
        expand p s = .pixel px d →
        ((s.cfg.rle && s.pktRun) = false → exec p.toInstr s = .fault .outAddress)
        ∧ (s.cfg.rle = false → exec (.rawpx p) s = .fault .outAddress))
      ∧ (∀ e : PalEntry, s.seq = .pix → s.cfg.format = some .pal8 → s.cfg.palFormat = some e.fmt → s.ip + 1 ≤ s.cfg.inLen →
        (s.cfg.rle && s.pktRun) = false → exec e.toInstr s = .fault .outAddress))
    ∧ (∀ (a : Nat) (v : Byte), (2 ^ s.par.inAW ≤ a → hostOp (.writeIn a v) s = .fault .inAddress)
      ∧ (4 * s.par.outCap ≤ a → hostOp (.readOut a) s = .fault .outAddress)
      ∧ (4 * s.par.outCap ≤ a → s.seq.busy = false → hostOp (.writeOut a v) s = .fault .outAddress)
      ∧ (s.seq.busy = true → hostOp (.writeOut a v) s = .refused .hostForbidden))

/-! ## Commands -/

/-- R22: the legal configurations, and START in IDLE raises `E_CFG` on the others and on no legal one. -/
def Obligations.LegalConfigurations : Prop :=
  (∀ s : State, s.seq = .idle → s.err = .none → ∃ t, exec .start s = .next t ∧ (t.err = .eCfg ↔ s.cfg.legal s.par = false))
  ∧ ∀ (c : Cfg) (par : Params), c.legal par = true ↔
    (c.imgType = 1 ∨ c.imgType = 2 ∨ c.imgType = 3)
    ∧ (c.imgType = 1 → c.bpp = 8 ∧ (c.palBpp = 15 ∨ c.palBpp = 16 ∨ c.palBpp = 24 ∨ c.palBpp = 32) ∧ c.palCount ≠ 0)
    ∧ (c.imgType = 2 → c.bpp = 16 ∨ c.bpp = 24 ∨ c.bpp = 32)
    ∧ (c.imgType = 3 → c.bpp = 8 ∨ c.bpp = 16)
    ∧ c.width.toNat * c.height.toNat ≤ par.outCap

/-- R124: START. (`inStale` is the model's own field, log entry 8.) -/
def Obligations.StartBeginsARun : Prop :=
  ∀ s : State,
    (s.seq = .idle → s.cfg.legal s.par = true → ∃ t, exec .start s = .next t
      ∧ t.total.toNat = s.cfg.width.toNat * s.cfg.height.toNat
      ∧ t = { s with
          total := t.total, ip := s.cfg.inStart, op := 0, pktCnt := 0, pktRun := false, err := .none, ovr := false,
          inStale := false
          seq := if s.cfg.width.toNat * s.cfg.height.toNat = 0 then .done else if s.cfg.ctrl = 1 then .hdr else .pix })
    ∧ (s.seq = .idle → s.cfg.legal s.par = false → exec .start s = .next { s with err := .eCfg, seq := .err })
    ∧ (s.seq ≠ .idle → exec .start s = .next s)

/-- R125: CLEAR. -/
def Obligations.ClearReturnsToIdle : Prop :=
  ∀ s : State,
    (s.seq = .idle ∨ s.seq = .done ∨ s.seq = .err →
      exec .clear s = .next { s with seq := .idle, err := .none, ovr := false })
    ∧ (s.seq = .hdr ∨ s.seq = .pix ∨ s.seq = .rep → exec .clear s = .next s)

/-! ## The host's operations -/

/-- The fields of `STATUS` and their codes (R15, R16, R17, R18). Derived. -/
def Obligations.StatusShowsStateErrorAndOverrun : Prop :=
  ∀ s : State,
    (s.status.extractLsb' 0 3).toNat
      = (match s.seq with | .idle => 0 | .hdr => 1 | .pix => 2 | .rep => 3 | .done => 4 | .err => 5)
    ∧ (s.status.extractLsb' 4 3).toNat = (match s.err with | .none => 0 | .eCfg => 1 | .eTrunc => 2 | .ePalIdx => 3)
    ∧ s.status.getLsbD 8 = s.ovr ∧ s.status.getLsbD 3 = false ∧ s.status.getLsbD 7 = false

/-- R126: a register read returns the register and has no side effect. -/
def Obligations.RegisterReadHasNoSideEffect : Prop :=
  ∀ (s : State) (n : Nat), ∃ t, hostOp (.readReg n) s = .next t ∧ t = { s with rdata := t.rdata }
    ∧ (n = 10 ∨ 13 < n → t.rdata = 0)
    ∧ (n = 0 → t.rdata = s.cfg.ctrl.toNat) ∧ (n = 1 → t.rdata = s.cfg.imgType.toNat) ∧ (n = 2 → t.rdata = s.cfg.bpp.toNat)
    ∧ (n = 3 → t.rdata = s.cfg.palBpp.toNat) ∧ (n = 4 → t.rdata = s.cfg.hasAlpha.toNat)
    ∧ (n = 5 → t.rdata = s.cfg.width.toNat) ∧ (n = 6 → t.rdata = s.cfg.height.toNat)
    ∧ (n = 7 → t.rdata = s.cfg.palCount.toNat) ∧ (n = 8 → t.rdata = s.cfg.inStart) ∧ (n = 9 → t.rdata = s.cfg.inLen)
    ∧ (n = 11 → t.rdata = s.status.toNat) ∧ (n = 12 → t.rdata = s.ip) ∧ (n = 13 → t.rdata = s.op.toNat)

/-- R19 (with R121): a write of a configuration register keeps the low bits of the value, changes no other register, and is ignored
while the block is BUSY. -/
def Obligations.ConfigurationWriteKeepsTheLowBits : Prop :=
  ∀ (s : State) (n v w : Nat), [1, 2, 8, 8, 1, 16, 16, 16, s.par.inAW, s.par.inAW][n]? = some w →
    (s.seq.busy = false → ∃ t, hostOp (.writeReg n v) s = .next t ∧ t = { s with cfg := t.cfg }
      ∧ t.readReg n = v % 2 ^ w ∧ ∀ m, m ≠ n → t.readReg m = s.readReg m)
    ∧ (s.seq.busy = true → hostOp (.writeReg n v) s = .next s)

/-- R24 (and the reserved indices of R47): a write of `STATUS`, `IP`, `OP` or an index above 13 changes nothing in any phase, and
a read of the three returns the value at that moment. -/
def Obligations.ReadOnlyRegistersIgnoreWrites : Prop :=
  ∀ (s : State) (n v : Nat), (11 ≤ n → hostOp (.writeReg n v) s = .next s)
    ∧ hostOp (.readReg 11) s = .next { s with rdata := s.status.toNat }
    ∧ hostOp (.readReg 12) s = .next { s with rdata := s.ip }
    ∧ hostOp (.readReg 13) s = .next { s with rdata := s.op.toNat }

/-- Registers lie 8 bytes apart on the bus and are found again at their addresses. Derived from R18. -/
def Obligations.RegisterAddressesAreDistinct : Prop :=
  ∀ (par : Params) (n : Nat), regAddr par n = par.regBase + 8 * n ∧ busRead par (regAddr par n) = some (.readReg n)
    ∧ ∀ v, busWrite par (regAddr par n) v = some (.writeReg n v)

/-- What the host writes to a memory outside BUSY is there, and no other byte changes: `PAL` and `OUT` are read back by the host,
`IN` by the block's next fetch. While BUSY a write of `PAL` is ignored, and a write of `IN` leaves no later fetch of the run a
known value: it sets `inStale`, which no step of the block clears (`BlockStepTouchesOnlyItsPixel`), and while that is set every byte
that a fetch gives is a free value of its own. Derived from R120, R122, R123 and R54 (U5). The model's
choices: that any write of `IN` while BUSY does so (log entry 8), what a free value is (log entry 5), that a byte of `OUT` that the host wrote itself is read back in DONE (log entry 14), and that a write of `OUT`
while BUSY is refused (log entry 7). -/
def Obligations.HostWritesReachTheMemories : Prop :=
  ∀ (s : State) (v : Byte),
    (∀ a : BitVec 10,
      (s.seq.busy = false → ∃ t, hostOp (.writePal a v) s = .next t ∧ t = { s with palMem := t.palMem }
        ∧ hostOp (.readPal a) t = .next { t with rdata := v.toNat }
        ∧ ∀ k, k ≠ a.toNat → t.palMem.get? k = s.palMem.get? k)
      ∧ (s.seq.busy = true → hostOp (.writePal a v) s = .next s))
    ∧ (s.inStale = true → ∀ n, (s.fetch n).2 = s.draws + n
      ∧ ∀ k, k < n → (s.fetch n).1[k]? = some (Config.freeByte (s.draws + k)))
    ∧ (∀ a, a < 2 ^ s.par.inAW → ∃ t, hostOp (.writeIn a v) s = .next t
      ∧ t = { s with inMem := t.inMem, inStale := t.inStale } ∧ t.inMem.get? a = some v
      ∧ (∀ k, k ≠ a → t.inMem.get? k = s.inMem.get? k)
      ∧ (t.inStale = true ↔ s.inStale = true ∨ s.seq.busy = true))
    ∧ (∀ a, a < 4 * s.par.outCap →
      (s.seq.busy = false → ∃ t, hostOp (.writeOut a v) s = .next t ∧ t = { s with outMem := t.outMem }
        ∧ (s.seq = .done → a < 4 * s.total.toNat → hostOp (.readOut a) t = .next { t with rdata := v.toNat })
        ∧ ∀ k, k ≠ a → t.outMem.get? k = s.outMem.get? k)
      ∧ (s.seq.busy = true → hostOp (.writeOut a v) s = .refused .hostForbidden))

/-- In DONE every byte of the image has a value and the host reads it; in any other state, and above the image, a read
returns a free value and changes nothing of the block. Derived from R127, R31 and U2. The model's choices: that what is read in DONE
is the byte that `outMem` lists, whoever wrote it (log entry 14), and the form of the free value (log entry 5). -/
def Obligations.ResultIsReadableOnlyInDone : Prop :=
  ∀ (s : State) (a : Nat), Inv s → a < 4 * s.par.outCap →
    (s.seq = .done → a < 4 * s.total.toNat →
      ∃ b, s.outMem.get? a = some b ∧ hostOp (.readOut a) s = .next { s with rdata := b.toNat })
    ∧ (s.seq ≠ .done ∨ 4 * s.total.toNat ≤ a →
      hostOp (.readOut a) s = .next { s with rdata := (Config.freeByte s.draws).toNat, draws := s.draws + 1 })

/-- A host read of `PAL`: while BUSY a free value (R120, U4); outside BUSY the byte that the host has written, and where it has written
none a free value (U3). Nothing else changes. Derived from R120, U3 and U4; the form of the free values is the model's choice (log
entries 4, 5 and 14). -/
def Obligations.PaletteReadGivesTheByteOrAFreeValue : Prop :=
  ∀ (s : State) (a : BitVec 10),
    (s.seq.busy = true ∨ s.palMem.get? a.toNat = none →
      hostOp (.readPal a) s = .next { s with rdata := (Config.freeByte s.draws).toNat, draws := s.draws + 1 })
    ∧ (∀ b, s.seq.busy = false → s.palMem.get? a.toNat = some b → hostOp (.readPal a) s = .next { s with rdata := b.toNat })

/-- Nothing the host does while the block is BUSY reaches the run, but a write of `IN`: every register, `PAL` and `OUT` stay as
they are. Derived from R120. -/
def Obligations.HostCannotDisturbARun : Prop :=
  ∀ (s t : State) (op : HostOp), s.seq.busy → hostOp op s = .next t →
    t = { s with inMem := t.inMem, inStale := t.inStale, rdata := t.rdata, draws := t.draws }
    ∧ ((∀ a v, op ≠ .writeIn a v) → t.inMem = s.inMem ∧ t.inStale = s.inStale)

/-- The host learns nothing of `PKT_CNT`, `PKT_RUN` and `PX`: two states that differ only there answer every host operation with
the same value and show the same registers after it. Derived from R29. -/
def Obligations.HiddenRegistersCannotBeRead : Prop :=
  ∀ (s t t' : State) (cnt : BitVec 8) (r : Bool) (px : Rgba) (op : HostOp),
    hostOp op s = .next t → hostOp op { s with pktCnt := cnt, pktRun := r, px := px } = .next t' →
    t.rdata = t'.rdata ∧ ∀ n, t.readReg n = t'.readReg n

/-! ## The host's own work -/

/-- A header that passes the host's checks gives a configuration that START accepts, whatever the extension area says, apart from
`OUT_CAP`. Derived from R171 and R22. -/
def Obligations.ValidatedHeaderIsLegal : Prop :=
  ∀ (h h' : HostDuties.Header) (par : Params) (ha : Bool) (len : Nat), HostDuties.validate h = .ok h' →
    h.width.toNat * h.height.toNat ≤ par.outCap → (h'.cfg ha len).legal par = true

/-- The orientation pass undoes itself. Derived from R175 (the two mirrors). -/
def Obligations.OrientationPassIsAnInvolution : Prop :=
  ∀ (w h : Nat) (flags : Byte) (px : List Rgba), px.length = w * h →
    HostDuties.orient w h flags (HostDuties.orient w h flags px) = px

/-- The host's whole work for one file. A file that the host rejects is reported and the block is not touched. After a run that has
ended in DONE the host returns the pixels of `OUT` after the orientation pass, with the header's width and height and the extension
area's colour model, and the block is in IDLE again; after one that has ended in ERR it reports the cause and returns no buffer. Whatever
the block was doing, a file that is not rejected and fits `IN` gets one of these answers once the host waits for as many steps as R181
bounds, and `ERR = 1` is met exactly by an image larger than `OUT_CAP`. Derived from R163, R174, R175, R178, R171 and R181; the host's
work as functions is the model's choice (log entry 15), and so is what it does with a file that does not fit `IN` and `IN_LEN`, of which
nothing is said here (log entry 17). -/
def Obligations.HostReturnsTheImageOrTheError : Prop :=
  (∀ (n : Nat) (bs : List Byte) (s : State) (e : HostDuties.HostError), HostDuties.prepare bs = .error e →
    HostDuties.decodeFile n bs s = .next (.error e, s))
  ∧ (∀ (p : HostDuties.Plan) (s : State) (w h : Nat), Inv s → s.seq = .done → s.rdata = s.status.toNat →
    w = p.header.width.toNat → h = p.header.height.toNat → s.total.toNat = w * h →
    ∃ (px : Nat → Rgba) (t : State),
      (∀ k, k < w * h → s.outMem.get? (4 * k) = some (px k).r ∧ s.outMem.get? (4 * k + 1) = some (px k).g
        ∧ s.outMem.get? (4 * k + 2) = some (px k).b ∧ s.outMem.get? (4 * k + 3) = some (px k).a)
      ∧ HostDuties.finish p s = .next (.image {
          pixels := HostDuties.orient w h p.header.flags ((List.range (w * h)).map px)
          width := p.header.width
          height := p.header.height
          model := p.model }, t)
      ∧ t = { s with seq := .idle, err := .none, ovr := false, rdata := t.rdata })
  ∧ (∀ (p : HostDuties.Plan) (s : State), s.seq = .err → s.err ≠ .none → s.rdata = s.status.toNat →
    HostDuties.finish p s = .next (
      .error (if s.err = .eTrunc then .truncatedStream else if s.err = .ePalIdx then .paletteIndexOutOfRange else .blockRefused),
      { s with seq := .idle, err := .none, ovr := false }))
  ∧ (∀ (n : Nat) (bs : List Byte) (s : State) (p : HostDuties.Plan) (w h : Nat), Inv s → HostDuties.prepare bs = .ok p →
    w = p.header.width.toNat → h = p.header.height.toNat → bs.length < 2 ^ s.par.inAW → s.mu ≤ n → 3 * (w * h) ≤ n →
    ∃ (a : HostDuties.Answer) (t : State), HostDuties.decodeFile n bs s = .next (a, t) ∧ t.seq = .idle
      ∧ (a = .error .truncatedStream ∨ a = .error .paletteIndexOutOfRange ∨ a = .error .blockRefused
        ∨ ∃ px : List Rgba, px.length = w * h
          ∧ a = .image { pixels := px, width := p.header.width, height := p.header.height, model := p.model })
      ∧ (a = .error .blockRefused ↔ s.par.outCap < w * h))
end

