-- ==== Sys2Proof/Laws/Decode.lean ====
section
/-! SUPPORT. What the decoder answers: every item of the right length decodes, and to a well-formed instruction of its kind. -/

namespace Sys2Proof

theorem headerCount_bounds (h : Byte) : 1 ≤ headerCount h ∧ headerCount h ≤ 128 := by
  have := (h.extractLsb' 0 7).isLt
  unfold headerCount; omega

/-- Every header byte is a legal header (30_encoding.md R61, R67). -/
theorem decode_header (h : Byte) (rest : List Byte) :
    ∃ c, 1 ≤ c ∧ c ≤ 128 ∧ (decode .header (h :: rest) = .ok (.run c, rest) ∨ decode .header (h :: rest) = .ok (.lit c, rest)) := by
  refine ⟨headerCount h, (headerCount_bounds h).1, (headerCount_bounds h).2, ?_⟩
  simp only [decode, decodeHeader]
  cases headerIsRun h
  · exact .inr rfl
  · exact .inl rfl

/-- Every value of every pixel format is a pixel of that format (30_encoding.md R67). -/
theorem decodePixel_total (f : PixFmt) (bs : List Byte) (h : bs.length = f.bytes) :
    ∃ p, decodePixel f bs = .ok (p, []) ∧ p.fmt = f := by
  cases f <;> simp only [PixFmt.bytes] at h
  · obtain ⟨a, b, c, d, rfl⟩ : ∃ a b c d, bs = [a, b, c, d] := by
      match bs, h with | [a, b, c, d], _ => exact ⟨a, b, c, d, rfl⟩
    exact ⟨_, rfl, rfl⟩
  · obtain ⟨a, b, c, rfl⟩ := List.length_eq_three.mp h
    exact ⟨_, rfl, rfl⟩
  · obtain ⟨a, b, rfl⟩ := List.length_eq_two.mp h
    exact ⟨_, rfl, rfl⟩
  · obtain ⟨a, b, rfl⟩ := List.length_eq_two.mp h
    exact ⟨_, rfl, rfl⟩
  · obtain ⟨a, rfl⟩ := List.length_eq_one_iff.mp h
    exact ⟨_, rfl, rfl⟩
  · obtain ⟨a, rfl⟩ := List.length_eq_one_iff.mp h
    exact ⟨_, rfl, rfl⟩

/-- Every value of every palette entry format is an entry of that format. -/
theorem decodeEntry_total (f : PalFmt) (bs : List Byte) (h : bs.length = f.bytes) :
    ∃ e, decodeEntry f bs = .ok (e, []) ∧ e.fmt = f := by
  cases f <;> simp only [PalFmt.bytes] at h
  · obtain ⟨a, b, c, rfl⟩ := List.length_eq_three.mp h
    exact ⟨_, rfl, rfl⟩
  · obtain ⟨a, b, c, d, rfl⟩ : ∃ a b c d, bs = [a, b, c, d] := by
      match bs, h with | [a, b, c, d], _ => exact ⟨a, b, c, d, rfl⟩
    exact ⟨_, rfl, rfl⟩
  · obtain ⟨a, b, rfl⟩ := List.length_eq_two.mp h
    exact ⟨_, rfl, rfl⟩

/-- The bit fields of a word put it together again. -/
theorem word555_fields (w : BitVec 16) : word555 (blue5 w) (green5 w) (red5 w) (bit15 w) = w := by
  apply BitVec.eq_of_toNat_eq
  have := w.isLt
  simp only [word555, blue5, green5, red5, bit15, BitVec.extractLsb'_toNat, BitVec.toNat_ofNat, Nat.shiftRight_eq_div_pow]
  omega

theorem fields_word555 (b g r : BitVec 5) (t : BitVec 1) :
    blue5 (word555 b g r t) = b ∧ green5 (word555 b g r t) = g ∧ red5 (word555 b g r t) = r ∧ bit15 (word555 b g r t) = t := by
  have hb := b.isLt
  have hg := g.isLt
  have hr := r.isLt
  have ht := t.isLt
  refine ⟨?_, ?_, ?_, ?_⟩ <;> apply BitVec.eq_of_toNat_eq <;>
    simp only [word555, blue5, green5, red5, bit15, BitVec.extractLsb'_toNat, BitVec.toNat_ofNat, Nat.shiftRight_eq_div_pow] <;>
    omega

theorem le16_bytes (w : BitVec 16) : le16 (lo8 w) (hi8 w) = w := by
  apply BitVec.eq_of_toNat_eq
  have := w.isLt
  simp only [le16, lo8, hi8, BitVec.extractLsb'_toNat, BitVec.toNat_ofNat, Nat.shiftRight_eq_div_pow]
  omega

theorem bytes_le16 (b0 b1 : Byte) : lo8 (le16 b0 b1) = b0 ∧ hi8 (le16 b0 b1) = b1 := by
  have h0 := b0.isLt
  have h1 := b1.isLt
  refine ⟨?_, ?_⟩ <;> apply BitVec.eq_of_toNat_eq <;>
    simp only [le16, lo8, hi8, BitVec.extractLsb'_toNat, BitVec.toNat_ofNat, Nat.shiftRight_eq_div_pow] <;> omega

/-- A header byte says its packet's kind and count (30_encoding.md R61, R62). -/
theorem headerByte_fields (r : Bool) (c : Nat) (h1 : 1 ≤ c) (h2 : c ≤ 128) :
    headerIsRun (headerByte r c) = r ∧ headerCount (headerByte r c) = c := by
  constructor
  · cases r <;>
      simp only [headerIsRun, headerByte, BitVec.getLsbD_eq_getElem, BitVec.getElem_eq_testBit_toNat, BitVec.toNat_ofNat,
        Nat.testBit_eq_decide_div_mod_eq, Nat.reducePow, Nat.reduceLT] <;> simp <;> omega
  · cases r <;>
      simp only [headerCount, headerByte, BitVec.extractLsb'_toNat, BitVec.toNat_ofNat, Nat.shiftRight_eq_div_pow] <;>
      simp <;> omega

/-- The header byte of the kind and count a byte says is that byte. -/
theorem headerByte_of_fields (h : Byte) : headerByte (headerIsRun h) (headerCount h) = h := by
  apply BitVec.eq_of_toNat_eq
  have := h.isLt
  simp only [headerIsRun, headerCount, headerByte, BitVec.extractLsb'_toNat, BitVec.toNat_ofNat, BitVec.getLsbD,
    Nat.testBit_eq_decide_div_mod_eq, Nat.shiftRight_eq_div_pow]
  split <;> simp_all <;> omega

end Sys2Proof
end

