-- ==== Sys2Proof/Laws/Memory.lean ====
section
/-! SUPPORT. The laws of the memories: read after write, the canonical form, and reading several bytes. -/

namespace Sys2Proof.Machine

theorem Mem.get?_set (m : Mem) (a : Nat) (v : Byte) (k : Nat) :
    (m.set a v).get? k = if k = a then some v else m.get? k := by
  induction m with
  | nil => simp [Mem.set, Mem.get?, eq_comm]
  | cons c rest ih =>
    obtain ⟨k0, b0⟩ := c
    simp only [Mem.set]
    split
    · simp only [Mem.get?]; grind
    · split
      · simp only [Mem.get?]; grind
      · simp only [Mem.get?, ih]; grind

@[simp] theorem Mem.get?_set_self (m : Mem) (a : Nat) (v : Byte) : (m.set a v).get? a = some v := by simp [Mem.get?_set]

theorem Mem.get?_set_ne (m : Mem) {a k : Nat} (v : Byte) (h : k ≠ a) : (m.set a v).get? k = m.get? k := by
  simp [Mem.get?_set, h]

theorem Mem.wfFrom_mono {lo lo' : Nat} (h : lo' ≤ lo) (m : Mem) (w : m.wfFrom lo) : m.wfFrom lo' := by
  cases m with
  | nil => rfl
  | cons c rest =>
    simp only [Mem.wfFrom, Bool.and_eq_true, decide_eq_true_eq] at w ⊢
    exact ⟨h.trans w.1, w.2⟩

theorem Mem.wfFrom_set (m : Mem) (lo a : Nat) (v : Byte) (h : m.wfFrom lo) (ha : lo ≤ a) : (m.set a v).wfFrom lo := by
  induction m generalizing lo with
  | nil => simp [Mem.set, Mem.wfFrom, ha]
  | cons c rest ih =>
    obtain ⟨k, b⟩ := c
    simp only [Mem.wfFrom, Bool.and_eq_true, decide_eq_true_eq] at h
    simp only [Mem.set]
    split
    · simp only [Mem.wfFrom, Bool.and_eq_true, decide_eq_true_eq]
      exact ⟨ha, by omega, h.2⟩
    · split
      · subst_vars; simp only [Mem.wfFrom, Bool.and_eq_true, decide_eq_true_eq]; exact h
      · simp only [Mem.wfFrom, Bool.and_eq_true, decide_eq_true_eq]
        exact ⟨h.1, ih _ h.2 (by omega)⟩

/-- A write keeps the canonical form. -/
theorem Mem.wf_set (m : Mem) (a : Nat) (v : Byte) (h : m.wf) : (m.set a v).wf := Mem.wfFrom_set m 0 a v h (Nat.zero_le a)

theorem Mem.below_set (m : Mem) (n a : Nat) (v : Byte) (h : m.below n) (ha : a < n) : (m.set a v).below n := by
  induction m with
  | nil => simp [Mem.set, Mem.below, ha]
  | cons c rest ih =>
    obtain ⟨k, b⟩ := c
    simp only [Mem.below, List.all_cons, Bool.and_eq_true, decide_eq_true_eq] at h
    simp only [Mem.set]
    split
    · simp only [Mem.below, List.all_cons, Bool.and_eq_true, decide_eq_true_eq]; exact ⟨ha, h.1, h.2⟩
    · split
      · simp only [Mem.below, List.all_cons, Bool.and_eq_true, decide_eq_true_eq]; exact ⟨ha, h.2⟩
      · have := ih h.2
        simp only [Mem.below, List.all_cons, Bool.and_eq_true, decide_eq_true_eq] at *; exact ⟨h.1, this⟩

/-- Writing several bytes keeps the canonical form. -/
theorem Mem.wf_write (bs : List Byte) (m : Mem) (a : Nat) (h : m.wf) : (m.write a bs).wf := by
  induction bs generalizing m a with
  | nil => exact h
  | cons b rest ih => exact ih _ _ (Mem.wf_set m a b h)

theorem Mem.below_write (bs : List Byte) (m : Mem) (n a : Nat) (h : m.below n) (ha : a + bs.length ≤ n) :
    (m.write a bs).below n := by
  induction bs generalizing m a with
  | nil => exact h
  | cons b rest ih =>
    simp only [List.length_cons] at ha
    exact ih _ _ (Mem.below_set m n a b h (by omega)) (by omega)

/-- Several bytes written at `a`: byte `k` of them at `a + k`, every other address as before. -/
theorem Mem.get?_write (bs : List Byte) (m : Mem) (a k : Nat) :
    (m.write a bs).get? k = if a ≤ k ∧ k < a + bs.length then bs[k - a]? else m.get? k := by
  induction bs generalizing m a with
  | nil => simp only [Mem.write, List.length_nil]; rw [if_neg (by omega)]
  | cons b rest ih =>
    simp only [Mem.write, ih, Mem.get?_set, List.length_cons]
    by_cases h : k = a
    · subst h; simp
    · by_cases h1 : a + 1 ≤ k ∧ k < a + 1 + rest.length
      · rw [if_pos h1, if_pos (by omega), show k - a = (k - (a + 1)) + 1 by omega, List.getElem?_cons_succ]
      · rw [if_neg h1, if_neg h, if_neg (by omega)]

/-- The four bytes of a pixel in `OUT` (20_memory.md R41). -/
theorem Mem.get?_write_pixel (m : Mem) (a : Nat) (p : Rgba) :
    (m.write a p.outBytes).get? a = some p.r ∧ (m.write a p.outBytes).get? (a + 1) = some p.g
    ∧ (m.write a p.outBytes).get? (a + 2) = some p.b ∧ (m.write a p.outBytes).get? (a + 3) = some p.a := by
  simp [Mem.get?_write, Rgba.outBytes]

theorem Mem.get?_write_other (m : Mem) (a k : Nat) (p : Rgba) (h : k < a ∨ a + 4 ≤ k) :
    (m.write a p.outBytes).get? k = m.get? k := by
  rw [Mem.get?_write, if_neg (by simp [Rgba.outBytes]; omega)]

theorem Mem.ofBytes_wfFrom (bs : List Byte) (a : Nat) : (Mem.ofBytes a bs).wfFrom a := by
  induction bs generalizing a with
  | nil => rfl
  | cons b rest ih => simp [Mem.ofBytes, Mem.wfFrom, ih]

@[simp] theorem readBytes_length (look : Nat → Option Byte) (n a d : Nat) : (readBytes look n a d).1.length = n := by
  induction n generalizing a d with
  | zero => rfl
  | succ n ih => simp only [readBytes]; split <;> simp [ih]

/-- Bytes that are all known are read as they are and use no free value. -/
theorem readBytes_known (look : Nat → Option Byte) (bs : List Byte) (a d : Nat)
    (h : ∀ k, k < bs.length → look (a + k) = bs[k]?) : readBytes look bs.length a d = (bs, d) := by
  induction bs generalizing a with
  | nil => rfl
  | cons b rest ih =>
    have h0 : look a = some b := by simpa using h 0 (by simp)
    have hr := ih (a + 1) (fun k hk => by
      have := h (k + 1) (by simpa using hk)
      rw [List.getElem?_cons_succ] at this
      rw [← this]; congr 1; omega)
    simp only [List.length_cons, readBytes, h0, hr]

/-- Bytes none of which is known are free values, each of its own (93_implementation_defined.md U5). -/
theorem readBytes_unknown (n a d : Nat) :
    readBytes (fun _ => none) n a d = ((List.range n).map (fun k => Config.freeByte (d + k)), d + n) := by
  induction n generalizing a d with
  | zero => rfl
  | succ n ih =>
    simp only [readBytes, ih, List.range_succ_eq_map, List.map_cons, List.map_map, Prod.mk.injEq, List.cons.injEq]
    refine ⟨⟨rfl, List.map_congr_left (fun k _ => ?_)⟩, by omega⟩
    simp only [Function.comp_apply]; congr 1; omega

/-- A listed address lies below any bound of the memory. -/
theorem Mem.lt_of_below {m : Mem} {n a : Nat} (h : m.below n) (ha : m.get? a ≠ none) : a < n := by
  induction m with
  | nil => exact absurd rfl ha
  | cons c rest ih =>
    obtain ⟨k, b⟩ := c
    simp only [Mem.below, List.all_cons, Bool.and_eq_true, decide_eq_true_eq] at h
    simp only [Mem.get?] at ha
    split at ha
    · omega
    · exact ih h.2 ha

end Sys2Proof.Machine
end

