-- ==== Sys2Proof/Laws/State.lean ====
section
/-! SUPPORT. Every update of `State`, field by field: no later proof unfolds one. -/

namespace Sys2Proof.Machine

variable (s : State)

@[simp] theorem State.raise_fields (e : ErrCode) :
    (s.raise e).seq = .err ∧ (s.raise e).err = e ∧ (s.raise e).cfg = s.cfg ∧ (s.raise e).ovr = s.ovr ∧ (s.raise e).ip = s.ip
    ∧ (s.raise e).op = s.op ∧ (s.raise e).total = s.total ∧ (s.raise e).pktCnt = s.pktCnt ∧ (s.raise e).pktRun = s.pktRun
    ∧ (s.raise e).px = s.px ∧ (s.raise e).inMem = s.inMem ∧ (s.raise e).palMem = s.palMem ∧ (s.raise e).outMem = s.outMem
    ∧ (s.raise e).par = s.par ∧ (s.raise e).moves = s.moves ∧ (s.raise e).rdata = s.rdata ∧ (s.raise e).inStale = s.inStale
    ∧ (s.raise e).draws = s.draws := by simp [State.raise]

@[simp] theorem State.cleared_fields :
    s.cleared.seq = .idle ∧ s.cleared.err = .none ∧ s.cleared.ovr = false ∧ s.cleared.cfg = s.cfg ∧ s.cleared.ip = s.ip
    ∧ s.cleared.op = s.op ∧ s.cleared.total = s.total ∧ s.cleared.pktCnt = s.pktCnt ∧ s.cleared.pktRun = s.pktRun
    ∧ s.cleared.px = s.px ∧ s.cleared.inMem = s.inMem ∧ s.cleared.palMem = s.palMem ∧ s.cleared.outMem = s.outMem
    ∧ s.cleared.par = s.par ∧ s.cleared.moves = s.moves ∧ s.cleared.rdata = s.rdata ∧ s.cleared.inStale = s.inStale
    ∧ s.cleared.draws = s.draws := by simp [State.cleared]

@[simp] theorem State.advance_fields (n : Nat) :
    (s.advance n).ip = s.ip + n ∧ (s.advance n).cfg = s.cfg ∧ (s.advance n).seq = s.seq ∧ (s.advance n).err = s.err
    ∧ (s.advance n).ovr = s.ovr ∧ (s.advance n).op = s.op ∧ (s.advance n).total = s.total ∧ (s.advance n).pktCnt = s.pktCnt
    ∧ (s.advance n).pktRun = s.pktRun ∧ (s.advance n).px = s.px ∧ (s.advance n).inMem = s.inMem
    ∧ (s.advance n).palMem = s.palMem ∧ (s.advance n).outMem = s.outMem ∧ (s.advance n).par = s.par
    ∧ (s.advance n).moves = s.moves ∧ (s.advance n).rdata = s.rdata ∧ (s.advance n).inStale = s.inStale
    ∧ (s.advance n).draws = s.draws := by simp [State.advance]

@[simp] theorem State.setDraws_fields (d : Nat) :
    (s.setDraws d).draws = d ∧ (s.setDraws d).cfg = s.cfg ∧ (s.setDraws d).seq = s.seq ∧ (s.setDraws d).err = s.err
    ∧ (s.setDraws d).ovr = s.ovr ∧ (s.setDraws d).ip = s.ip ∧ (s.setDraws d).op = s.op ∧ (s.setDraws d).total = s.total
    ∧ (s.setDraws d).pktCnt = s.pktCnt ∧ (s.setDraws d).pktRun = s.pktRun ∧ (s.setDraws d).px = s.px
    ∧ (s.setDraws d).inMem = s.inMem ∧ (s.setDraws d).palMem = s.palMem ∧ (s.setDraws d).outMem = s.outMem
    ∧ (s.setDraws d).par = s.par ∧ (s.setDraws d).moves = s.moves ∧ (s.setDraws d).rdata = s.rdata
    ∧ (s.setDraws d).inStale = s.inStale := by simp [State.setDraws]

@[simp] theorem State.emitted_fields (px : Rgba) :
    (s.emitted px).outMem = s.outMem.write (4 * s.op.toNat) px.outBytes ∧ (s.emitted px).op = s.op + 1#32
    ∧ (s.emitted px).pktCnt = s.nextCnt
    ∧ (s.emitted px).seq = endState s.cfg.rle (s.op + 1#32) s.total s.nextCnt s.seq
    ∧ (s.emitted px).ovr = endOverrun s.cfg.rle (s.op + 1#32) s.total s.nextCnt s.ovr
    ∧ (s.emitted px).cfg = s.cfg ∧ (s.emitted px).err = s.err ∧ (s.emitted px).ip = s.ip ∧ (s.emitted px).total = s.total
    ∧ (s.emitted px).pktRun = s.pktRun ∧ (s.emitted px).px = s.px ∧ (s.emitted px).inMem = s.inMem
    ∧ (s.emitted px).palMem = s.palMem ∧ (s.emitted px).par = s.par ∧ (s.emitted px).moves = s.moves
    ∧ (s.emitted px).rdata = s.rdata ∧ (s.emitted px).inStale = s.inStale ∧ (s.emitted px).draws = s.draws := by
  simp [State.emitted]

@[simp] theorem State.latched_fields (px : Rgba) :
    (s.latched px).px = px ∧ (s.latched px).seq = .rep ∧ (s.latched px).cfg = s.cfg ∧ (s.latched px).err = s.err
    ∧ (s.latched px).ovr = s.ovr ∧ (s.latched px).ip = s.ip ∧ (s.latched px).op = s.op ∧ (s.latched px).total = s.total
    ∧ (s.latched px).pktCnt = s.pktCnt ∧ (s.latched px).pktRun = s.pktRun ∧ (s.latched px).inMem = s.inMem
    ∧ (s.latched px).palMem = s.palMem ∧ (s.latched px).outMem = s.outMem ∧ (s.latched px).par = s.par
    ∧ (s.latched px).moves = s.moves ∧ (s.latched px).rdata = s.rdata ∧ (s.latched px).inStale = s.inStale
    ∧ (s.latched px).draws = s.draws := by simp [State.latched]

@[simp] theorem State.opened_fields (r : Bool) (c : Nat) :
    (s.opened r c).ip = s.ip + 1 ∧ (s.opened r c).pktRun = r ∧ (s.opened r c).pktCnt = BitVec.ofNat 8 c
    ∧ (s.opened r c).seq = .pix ∧ (s.opened r c).cfg = s.cfg ∧ (s.opened r c).err = s.err ∧ (s.opened r c).ovr = s.ovr
    ∧ (s.opened r c).op = s.op ∧ (s.opened r c).total = s.total ∧ (s.opened r c).px = s.px
    ∧ (s.opened r c).inMem = s.inMem ∧ (s.opened r c).palMem = s.palMem ∧ (s.opened r c).outMem = s.outMem
    ∧ (s.opened r c).par = s.par ∧ (s.opened r c).moves = s.moves ∧ (s.opened r c).rdata = s.rdata
    ∧ (s.opened r c).inStale = s.inStale ∧ (s.opened r c).draws = s.draws := by simp [State.opened]

@[simp] theorem State.started_fields :
    s.started.total = BitVec.ofNat 32 s.cfg.pixels ∧ s.started.ip = s.cfg.inStart ∧ s.started.op = 0#32 ∧ s.started.pktCnt = 0#8
    ∧ s.started.pktRun = false ∧ s.started.err = .none ∧ s.started.ovr = false ∧ s.started.inStale = false
    ∧ s.started.seq = (if s.cfg.pixels = 0 then .done else if s.cfg.rle then .hdr else .pix) ∧ s.started.cfg = s.cfg
    ∧ s.started.px = s.px ∧ s.started.inMem = s.inMem ∧ s.started.palMem = s.palMem ∧ s.started.outMem = s.outMem
    ∧ s.started.par = s.par ∧ s.started.moves = s.moves ∧ s.started.rdata = s.rdata ∧ s.started.draws = s.draws := by
  simp [State.started]

@[simp] theorem State.returns_fields (v : Nat) :
    (s.returns v).rdata = v ∧ (s.returns v).cfg = s.cfg ∧ (s.returns v).seq = s.seq ∧ (s.returns v).err = s.err
    ∧ (s.returns v).ovr = s.ovr ∧ (s.returns v).ip = s.ip ∧ (s.returns v).op = s.op ∧ (s.returns v).total = s.total
    ∧ (s.returns v).pktCnt = s.pktCnt ∧ (s.returns v).pktRun = s.pktRun ∧ (s.returns v).px = s.px
    ∧ (s.returns v).inMem = s.inMem ∧ (s.returns v).palMem = s.palMem ∧ (s.returns v).outMem = s.outMem
    ∧ (s.returns v).par = s.par ∧ (s.returns v).moves = s.moves ∧ (s.returns v).inStale = s.inStale
    ∧ (s.returns v).draws = s.draws := by simp [State.returns]

@[simp] theorem State.returnsFree_fields :
    s.returnsFree.rdata = (Config.freeByte s.draws).toNat ∧ s.returnsFree.draws = s.draws + 1 ∧ s.returnsFree.cfg = s.cfg
    ∧ s.returnsFree.seq = s.seq ∧ s.returnsFree.err = s.err ∧ s.returnsFree.ovr = s.ovr ∧ s.returnsFree.ip = s.ip
    ∧ s.returnsFree.op = s.op ∧ s.returnsFree.total = s.total ∧ s.returnsFree.pktCnt = s.pktCnt
    ∧ s.returnsFree.pktRun = s.pktRun ∧ s.returnsFree.px = s.px ∧ s.returnsFree.inMem = s.inMem
    ∧ s.returnsFree.palMem = s.palMem ∧ s.returnsFree.outMem = s.outMem ∧ s.returnsFree.par = s.par
    ∧ s.returnsFree.moves = s.moves ∧ s.returnsFree.inStale = s.inStale := by simp [State.returnsFree]

end Sys2Proof.Machine
end

