-- ==== Sys2Proof/Laws/HostDuties.lean ====
section
/-! SUPPORT. What each of the host's operations at the block does (70_reset_and_hazards.md R163, R174). -/

namespace Sys2Proof.Machine.HostDuties

/-! ## STATUS as the host reads it -/

theorem statusState_status (s : State) : statusState s.status.toNat = s.seq.code.toNat := by
  simp only [State.status, statusState]
  cases s.seq <;> cases s.err <;> cases s.ovr <;> decide

theorem statusErr_status (s : State) : statusErr s.status.toNat = s.err.code.toNat := by
  simp only [State.status, statusErr]
  cases s.seq <;> cases s.err <;> cases s.ovr <;> decide

theorem readStatus_eq (s : State) : readStatus s = .next (s.returns s.status.toNat) := rfl

theorem writeClear_eq (s : State) : writeClear s = execClear s := rfl

/-! ## Sequences of operations -/

@[simp] theorem andThen_next {α β : Type} (a : α) (f : α → Host.Outcome β Fault Refusal) : andThen (.next a) f = f a := rfl

theorem perform_append (l k : List Move) (s t : State) (h : perform l s = .next t) : perform (l ++ k) s = perform k t := by
  induction l generalizing s with
  | nil => cases h; rfl
  | cons m rest ih =>
    simp only [List.cons_append, perform] at h ⊢
    cases hm : takeMove m s with
    | next u => rw [hm] at h; exact ih u h
    | fault e => rw [hm] at h; cases h
    | refused e => rw [hm] at h; cases h

/-! ## Polling -/

/-- A run that has ended is seen at once. -/
theorem poll_ended (n : Nat) (s : State) (h : s.seq = .done ∨ s.seq = .err) : poll n s = .next (s.returns s.status.toNat) := by
  cases n with
  | zero => rfl
  | succ n =>
    simp only [poll, readStatus_eq, andThen_next, State.returns_fields, statusState_status]
    rcases h with h | h <;> simp [h, SeqState.code]

/-- A run that goes on is given one step after the read. -/
theorem poll_busy (n : Nat) (s t : State) (h : s.seq.busy) (hst : blockStep (s.returns s.status.toNat) = .next t) :
    poll (n + 1) s = poll n t := by
  simp only [poll, readStatus_eq, andThen_next, State.returns_fields, statusState_status, hst]
  cases hs : s.seq <;> simp [hs, SeqState.busy, SeqState.code] at h ⊢

/-! ## Copying the image -/

/-- In DONE the host reads the bytes of the image, and nothing but its own value changes. -/
theorem readImage_known (n : Nat) (s : State) (a : Nat) (f : Nat → Byte) (hs : s.seq = .done)
    (hb : ∀ k, k < n → a + k < 4 * s.total.toNat ∧ a + k < 4 * s.par.outCap ∧ s.outMem.get? (a + k) = some (f (a + k))) :
    ∃ v, readImage n a s = .next ((List.range n).map (fun k => f (a + k)), s.returns v) := by
  induction n generalizing s a with
  | zero => exact ⟨s.rdata, rfl⟩
  | succ n ih =>
    obtain ⟨h1, h2, h3⟩ := hb 0 (by omega)
    simp only [Nat.add_zero] at h1 h2 h3
    have hr : takeMove (.host (.readOut a)) s = .next (s.returns (f a).toNat) := by
      simp [takeMove, hostOp, readOut, h1, h2, h3, hs, State.returnsByte]
    obtain ⟨v, hv⟩ := ih (s.returns (f a).toNat) (a + 1) (by simpa using hs) (fun k hk => by
      have := hb (k + 1) (by omega)
      rw [show a + (k + 1) = a + 1 + k by omega] at this
      simpa using this)
    refine ⟨v, ?_⟩
    have hl : (List.range (n + 1)).map (fun k => f (a + k)) = f a :: (List.range n).map (fun k => f (a + 1 + k)) := by
      rw [List.range_succ_eq_map, List.map_cons, List.map_map]
      exact congrArg _ (List.map_congr_left (fun k _ => by simp only [Function.comp_apply]; congr 1; omega))
    simp only [readImage, hr, andThen_next, hv, hl, State.returns_fields, BitVec.ofNat_toNat, BitVec.setWidth_eq]
    rfl

/-- Four bytes are one pixel. -/
theorem pixelsOf_range (n : Nat) (f : Nat → Byte) :
    pixelsOf ((List.range (4 * n)).map f)
      = (List.range n).map (fun k => ⟨f (4 * k), f (4 * k + 1), f (4 * k + 2), f (4 * k + 3)⟩) := by
  induction n generalizing f with
  | zero => rfl
  | succ n ih =>
    have h := ih (fun k => f (k + 4))
    rw [show 4 * (n + 1) = 4 * n + 1 + 1 + 1 + 1 by omega]
    simp only [List.range_succ_eq_map, List.map_cons, List.map_map, pixelsOf] at h ⊢
    simp only [Function.comp_def, Nat.succ_eq_add_one, Nat.add_assoc, Nat.reduceAdd] at h ⊢
    rw [h]
    simp [Nat.mul_add, Nat.add_assoc]

/-! ## The host's writes -/

theorem takeMove_writeReg (s : State) (n v : Nat) (hb : s.seq.busy = false) (hn : n ≠ 10) :
    takeMove (.host (.writeReg n v)) s = .next { s with cfg := s.cfg.write s.par.inAW n v } := by
  simp [takeMove, hostOp, writeReg, hn, hb]

/-- Loading `IN` outside BUSY changes `IN` only. -/
theorem perform_loadIn (bs : List Byte) (a : Nat) (s : State) (hb : s.seq.busy = false) (ha : a + bs.length ≤ 2 ^ s.par.inAW)
    (hm : s.inMem.wf ∧ s.inMem.below (2 ^ s.par.inAW)) :
    ∃ m : Mem, perform (loadIn a bs) s = .next { s with inMem := m } ∧ m.wf ∧ m.below (2 ^ s.par.inAW) := by
  induction bs generalizing a s with
  | nil => exact ⟨s.inMem, rfl, hm⟩
  | cons b rest ih =>
    simp only [List.length_cons] at ha
    have ha' : a < 2 ^ s.par.inAW := by omega
    have hw : takeMove (.host (.writeIn a b)) s = .next { s with inMem := s.inMem.set a b } := by
      simp [takeMove, hostOp, writeIn, ha', hb]
    obtain ⟨m, h1, h2⟩ := ih (a + 1) { s with inMem := s.inMem.set a b } hb (by simp only; omega)
      ⟨Mem.wf_set _ _ _ hm.1, Mem.below_set _ _ _ _ hm.2 ha'⟩
    exact ⟨m, by simp only [loadIn, perform, hw, andThen_next, h1], h2⟩

/-- Loading `PAL` outside BUSY changes `PAL` only. -/
theorem perform_loadPal (bs : List Byte) (a : Nat) (s : State) (hb : s.seq.busy = false)
    (hm : s.palMem.wf ∧ s.palMem.below Config.palBytes) :
    ∃ m : Mem, perform (loadPal a bs) s = .next { s with palMem := m } ∧ m.wf ∧ m.below Config.palBytes := by
  induction bs generalizing a s with
  | nil => exact ⟨s.palMem, rfl, hm⟩
  | cons b rest ih =>
    have hw : takeMove (.host (.writePal (BitVec.ofNat 10 a) b)) s
        = .next { s with palMem := s.palMem.set (BitVec.ofNat 10 a).toNat b } := by
      simp [takeMove, hostOp, writePal, hb]
    obtain ⟨m, h1, h2⟩ := ih (a + 1) { s with palMem := s.palMem.set (BitVec.ofNat 10 a).toNat b } hb
      ⟨Mem.wf_set _ _ _ hm.1, Mem.below_set _ _ _ _ hm.2 (BitVec.ofNat 10 a).isLt⟩
    exact ⟨m, by simp only [loadPal, perform, hw, andThen_next, h1], h2⟩

/-- The configuration that the register writes leave: the header's, with the two addresses in `IN_AW` bits. -/
theorem perform_registers (s : State) (h : Header) (ha : Bool) (len : Nat) (hb : s.seq.busy = false) :
    perform ((registerValues h ha len).map (fun c => .host (.writeReg c.1 c.2))) s
      = .next { s with cfg := { h.cfg ha len with
          palCount := BitVec.ofNat 16 h.palCount, inStart := h.pixelStart % 2 ^ s.par.inAW, inLen := len % 2 ^ s.par.inAW } } := by
  simp only [registerValues, List.map_cons, List.map_nil, List.cons_append, List.nil_append, perform]
  simp only [takeMove_writeReg, hb, andThen_next, ne_eq, Nat.reduceEqDiff, not_false_eq_true, Cfg.write, Header.cfg]
  cases ha <;> simp

/-- A file that the host accepts has a header that passes the checks (R171). -/
theorem prepare_ok (bs : List Byte) (p : Plan) (h : prepare bs = .ok p) : validate p.header = .ok p.header := by
  unfold prepare at h
  simp only [bind, Except.bind, pure, Except.pure] at h
  split at h
  · cases h
  rename_i h0 hr
  split at h
  · cases h
  rename_i h1 hv
  split at h
  · cases h
  split at h
  · cases h
  cases h
  simp only [validate] at hv ⊢
  split at hv
  · rename_i hc
    cases hv
    rw [if_pos hc]
  · cases hv

end Sys2Proof.Machine.HostDuties
end

