-- ==== Sys2Proof/Laws/Step.lean ====
section
/-! SUPPORT. One lemma for each shared operation that says everything it can do, up to a whole step of the block. -/

namespace Sys2Proof.Machine

/-! ## The configuration -/

/-- `BYTES = BPP / 8` is the length of the format the configuration selects (30_encoding.md R63). -/
theorem Cfg.bytes_of_format {c : Cfg} {f : PixFmt} (h : c.format = some f) : c.bytes = f.bytes := by
  unfold Cfg.format at h
  unfold Cfg.bytes
  repeat' split at h
  all_goals first
    | (cases h; done)
    | (cases h; rename_i h0; simp [h0, PixFmt.bytes])

theorem Cfg.ew_of_palFormat {c : Cfg} {f : PalFmt} (h : c.palFormat = some f) : c.ew = f.bytes := by
  unfold Cfg.palFormat at h
  unfold Cfg.ew
  split at h
  · cases h; simp_all [PalFmt.bytes]
  · split at h
    · cases h; simp_all [PalFmt.bytes]
    · split at h
      · cases h
        rename_i h3
        simp only [Bool.or_eq_true, decide_eq_true_eq] at h3
        rcases h3 with h3 | h3 <;> simp [h3, PalFmt.bytes]
      · cases h

/-- A legal configuration selects a pixel format, and an entry format if it is paletted (41_pixel_expander.md R100). -/
theorem Cfg.legal_formats {c : Cfg} {par : Params} (h : c.legal par) :
    ∃ f, c.format = some f ∧ (f = .pal8 → (∃ g, c.palFormat = some g) ∧ 1 ≤ c.palCount.toNat) := by
  simp only [Cfg.legal, Bool.and_eq_true, Bool.or_eq_true, Bool.not_eq_true', decide_eq_true_eq, decide_eq_false_iff_not] at h
  obtain ⟨⟨⟨⟨h1, h2⟩, h3⟩, h4⟩, -⟩ := h
  rcases h1 with (h1 | h1) | h1
  · simp only [h1, not_true_eq_false, false_or] at h2
    obtain ⟨⟨hb, hp⟩, hc⟩ := h2
    refine ⟨.pal8, by simp [Cfg.format, h1, hb], fun _ => ⟨?_, hc⟩⟩
    rcases hp with ((hp | hp) | hp) | hp <;> simp [Cfg.palFormat, hp]
  · simp only [h1, not_true_eq_false, false_or] at h3
    rcases h3 with (h3 | h3) | h3
    · exact ⟨.true16, by simp [Cfg.format, h1, h3], by simp⟩
    · exact ⟨.true24, by simp [Cfg.format, h1, h3], by simp⟩
    · exact ⟨.true32, by simp [Cfg.format, h1, h3], by simp⟩
  · simp only [h1, not_true_eq_false, false_or] at h4
    rcases h4 with h4 | h4
    · exact ⟨.mono8, by simp [Cfg.format, h1, h4], by simp⟩
    · exact ⟨.mono16, by simp [Cfg.format, h1, h4], by simp⟩

theorem Cfg.legal_pixels {c : Cfg} {par : Params} (h : c.legal par) : c.pixels ≤ par.outCap := by
  simp only [Cfg.legal, Bool.and_eq_true, decide_eq_true_eq] at h
  exact h.2

/-- `WIDTH * HEIGHT` fits in 32 bits (10_state.md R12). -/
theorem Cfg.pixels_lt (c : Cfg) : c.pixels < 2 ^ 32 := by
  have hw := c.width.isLt
  have hh := c.height.isLt
  unfold Cfg.pixels
  nlinarith

/-! ## Emitting and delivering -/

/-- Everything `emit` can do. -/
theorem emit_next {px : Rgba} {s t : State} : emit px s = .next t ↔ s.op.toNat < s.par.outCap ∧ t = s.emitted px := by
  unfold emit
  split <;> simp_all [eq_comm]

/-- The writes of `emit` are those of R82 and R91. -/
theorem emitted_spec (px : Rgba) (s : State) : Emitted px s (s.emitted px) where
  bytes := by simpa using Mem.get?_write_pixel s.outMem (4 * s.op.toNat) px
  others := fun a h => by simpa using Mem.get?_write_other s.outMem _ a px h
  op := by simp
  cntRle := fun h => by simp [State.nextCnt, h]
  cntRaw := fun h => by simp [State.nextCnt, h]
  last := fun h => by
    simp only [State.emitted_fields] at h
    simp only [State.emitted_fields, endState, endOverrun, h, if_true, decide_true, Bool.true_and]
    refine ⟨trivial, ?_⟩
    split <;> rename_i hc
    · rw [hc, Bool.or_true]
    · rw [Bool.eq_false_iff.mpr hc, Bool.or_false]
  packetEnd := fun h hr hc => by
    simp only [State.emitted_fields] at h hc
    simp [endState, endOverrun, h, hr, hc]
  goesOn := fun h hc => by
    simp only [State.emitted_fields] at h hc
    rcases hc with hc | hc <;> simp [endState, endOverrun, h, hc]
  frame := by simp [State.emitted]

/-- Everything `deliver` can do. -/
theorem deliver_next {px : Rgba} {s t : State} (h : deliver px s = .next t) :
    (s.cfg.rle = true ∧ s.pktRun = true ∧ t = (s.advance s.cfg.bytes).latched px) ∨
    ((s.cfg.rle && s.pktRun) = false ∧ s.op.toNat < s.par.outCap ∧ t = (s.advance s.cfg.bytes).emitted px) := by
  unfold deliver at h
  split at h
  · rename_i hc
    simp only [Bool.and_eq_true] at hc
    cases h
    exact .inl ⟨hc.1, hc.2, rfl⟩
  · rename_i hc
    obtain ⟨h1, h2⟩ := emit_next.mp h
    exact .inr ⟨by simpa using hc, by simpa using h1, h2⟩

/-- A pixel that has a place in `OUT` is delivered (R84 with R85, R86 or R88). -/
theorem deliver_spec (px : Rgba) (s : State) (h : s.op.toNat < s.par.outCap) :
    ∃ t, deliver px s = .next t ∧ Delivered px s.cfg.bytes s t := by
  unfold deliver Delivered
  by_cases hc : s.cfg.rle = true ∧ s.pktRun = true
  · exact ⟨_, if_pos (by simpa using hc), by rw [if_pos hc]; rfl⟩
  · refine ⟨_, (if_neg (by simpa using hc)).trans (emit_next.mpr ⟨by simpa using h, rfl⟩), ?_⟩
    rw [if_neg hc]
    exact emitted_spec px (s.advance s.cfg.bytes)

/-! ## The expander -/

/-- A paletted pixel answers a tuple or `E_PALIDX` where the configuration selects an entry format (R106). -/
theorem expandPal8_cases (i : Byte) (s : State) (f : PalFmt) (hf : s.cfg.palFormat = some f) :
    (s.cfg.palCount.toNat ≤ i.toNat ∧ expandPal8 i s = .badIndex) ∨
    (i.toNat < s.cfg.palCount.toNat ∧ ∃ e, decodeEntry f (s.entryBytes i).1 = .ok (e, []) ∧ e.fmt = f
      ∧ expandPal8 i s = .pixel (expandEntry s.cfg.alpha e) (s.entryBytes i).2) := by
  unfold expandPal8
  by_cases hi : s.cfg.palCount.toNat ≤ i.toNat
  · exact .inl ⟨hi, by rw [if_pos hi]⟩
  · obtain ⟨e, he, hfe⟩ := decodeEntry_total f (s.entryBytes i).1 (by simp [State.entryBytes, Cfg.ew_of_palFormat hf])
    exact .inr ⟨by omega, e, he, hfe, by rw [if_neg hi]; simp [hf, he]⟩

/-- Only a paletted pixel can fail to expand. -/
theorem expand_pixel (p : Pixel) (s : State) (h : p.fmt ≠ .pal8) : ∃ px, expand p s = .pixel px s.draws := by
  cases p <;> first | exact ⟨_, rfl⟩ | exact absurd rfl h

/-! ## The PIX step -/

/-- Everything the PIX step of a decoded pixel can do when it answers a next state. -/
theorem pixStep_next {p : Pixel} {s t : State} (h : pixStep p s = .next t) :
    s.seq = .pix ∧ s.cfg.format = some p.fmt ∧
    ((s.present s.cfg.bytes = false ∧ t = s.raise .eTrunc) ∨
     (s.present s.cfg.bytes = true ∧ expand p s = .badIndex ∧ t = s.raise .ePalIdx) ∨
     (s.present s.cfg.bytes = true ∧ ∃ px d, expand p s = .pixel px d ∧ deliver px (s.setDraws d) = .next t)) := by
  unfold pixStep at h
  split at h
  · rename_i hc
    refine ⟨hc.1, hc.2, ?_⟩
    split at h
    · rename_i hp
      split at h
      · rename_i px d he
        exact .inr (.inr ⟨hp, px, d, he, h⟩)
      · rename_i he
        cases h
        exact .inr (.inl ⟨hp, he, rfl⟩)
      · cases h
    · rename_i hp
      cases h
      exact .inl ⟨by simpa using hp, rfl⟩
  · cases h

/-- A pixel of a packet runs as the PIX step. -/
theorem exec_toInstr (p : Pixel) (s : State) : exec p.toInstr s = pixStep p s := by cases p <;> rfl

/-- The PIX step is exactly: fetch, decode, and the step of the decoded pixel. -/
theorem pixItem_eq {s : State} {f : PixFmt} (hf : s.cfg.format = some f) :
    (s.present s.cfg.bytes = false ∧ pixItem s = .next (s.raise .eTrunc)) ∨
    (s.present s.cfg.bytes = true ∧ ∃ p, decodePixel f (s.fetch s.cfg.bytes).1 = .ok (p, []) ∧ p.fmt = f
      ∧ pixItem s = pixStep p (s.setDraws (s.fetch s.cfg.bytes).2)) := by
  simp only [pixItem, hf, fetchAndRun]
  cases hp : s.present s.cfg.bytes
  · exact .inl ⟨rfl, by simp⟩
  · obtain ⟨p, he, hfp⟩ := decodePixel_total f (s.fetch s.cfg.bytes).1 (by simp [State.fetch, Cfg.bytes_of_format hf])
    refine .inr ⟨rfl, p, he, hfp, ?_⟩
    have hk : decode (s.cfg.pixelKind f) (s.fetch s.cfg.bytes).1
        = .ok (if s.cfg.rle then p.toInstr else .rawpx p, []) := by
      unfold Cfg.pixelKind
      cases s.cfg.rle <;> simp [decode, he]
    rw [if_pos rfl, hk]
    cases hr : s.cfg.rle
    · simp [runDecoded, exec, execRawpx, hr]
    · simp [runDecoded, exec_toInstr]

/-- The HDR step is exactly: fetch, decode, and open the packet. -/
theorem hdrItem_eq (s : State) (hs : s.seq = .hdr) :
    (s.present 1 = false ∧ blockStep s = .next (s.raise .eTrunc)) ∨
    (s.present 1 = true ∧ ∃ h, (s.fetch 1).1 = [h] ∧
      blockStep s = .next ((s.setDraws (s.fetch 1).2).opened (headerIsRun h) (headerCount h))) := by
  simp only [blockStep, hs, fetchAndRun]
  cases hp : s.present 1
  · exact .inl ⟨rfl, by simp⟩
  · obtain ⟨h, hh⟩ := List.length_eq_one_iff.mp (show (s.fetch 1).1.length = 1 by simp [State.fetch])
    refine .inr ⟨rfl, h, hh, ?_⟩
    have hp' : (s.setDraws (s.fetch 1).2).present 1 = true := by simpa [State.present] using hp
    rw [if_pos rfl, hh]
    simp only [decode, runDecoded, decodeHeader]
    cases hr : headerIsRun h <;> simp [exec, execRun, execLit, openPacket, hs, hp']

/-- Everything a step of the block can do when it answers a next state (40_rle_packets.md R80). -/
theorem blockStep_next {s t : State} (h : blockStep s = .next t) :
    (s.seq.busy = false ∧ t = s) ∨
    (s.seq = .hdr ∧ s.present 1 = false ∧ t = s.raise .eTrunc) ∨
    (s.seq = .hdr ∧ s.present 1 = true ∧ ∃ d r c, 1 ≤ c ∧ c ≤ 128 ∧ t = (s.setDraws d).opened r c) ∨
    (s.seq = .pix ∧ s.present s.cfg.bytes = false ∧ t = s.raise .eTrunc) ∨
    (s.seq = .pix ∧ s.present s.cfg.bytes = true ∧ ∃ d, t = (s.setDraws d).raise .ePalIdx) ∨
    (s.seq = .pix ∧ s.present s.cfg.bytes = true ∧ s.cfg.rle = true ∧ s.pktRun = true
      ∧ ∃ d px, t = ((s.setDraws d).advance s.cfg.bytes).latched px) ∨
    (s.seq = .pix ∧ s.present s.cfg.bytes = true ∧ (s.cfg.rle && s.pktRun) = false ∧ s.op.toNat < s.par.outCap
      ∧ ∃ d px, t = ((s.setDraws d).advance s.cfg.bytes).emitted px) ∨
    (s.seq = .rep ∧ s.op.toNat < s.par.outCap ∧ t = s.emitted s.px) := by
  cases hs : s.seq
  case idle => simp only [blockStep, hs] at h; cases h; exact .inl ⟨rfl, rfl⟩
  case done => simp only [blockStep, hs] at h; cases h; exact .inl ⟨rfl, rfl⟩
  case err => simp only [blockStep, hs] at h; cases h; exact .inl ⟨rfl, rfl⟩
  case hdr =>
    rcases hdrItem_eq s hs with ⟨hp, he⟩ | ⟨hp, b, -, he⟩
    · rw [he] at h; cases h; exact .inr (.inl ⟨rfl, hp, rfl⟩)
    · rw [he] at h; cases h
      exact .inr (.inr (.inl ⟨rfl, hp, _, _, _, (headerCount_bounds b).1, (headerCount_bounds b).2, rfl⟩))
  case pix =>
    right; right; right
    have hb : blockStep s = pixItem s := by simp only [blockStep, hs]
    rw [hb] at h
    cases hf : s.cfg.format with
    | none => simp only [pixItem, hf] at h; cases h
    | some f =>
      rcases pixItem_eq hf with ⟨hp, he⟩ | ⟨hp, p, -, hpf, he⟩
      · rw [he] at h; cases h; exact .inl ⟨rfl, hp, rfl⟩
      · right
        rw [he] at h
        obtain ⟨-, -, hc⟩ := pixStep_next h
        have hp' : ∀ d, (s.setDraws d).present s.cfg.bytes = true := fun d => by simpa [State.present] using hp
        rcases hc with ⟨hn, -⟩ | ⟨-, -, ht⟩ | ⟨-, px, d, -, hd⟩
        · simp [hp'] at hn
        · exact .inl ⟨rfl, hp, _, ht⟩
        · right
          rcases deliver_next hd with ⟨h1, h2, ht⟩ | ⟨h1, h2, ht⟩
          · exact .inl ⟨rfl, hp, by simpa using h1, by simpa using h2, d, px, ht⟩
          · exact .inr (.inl ⟨rfl, hp, by simpa using h1, by simpa using h2, d, px, ht⟩)
  case rep =>
    simp only [blockStep, hs] at h
    obtain ⟨h1, h2⟩ := emit_next.mp h
    exact .inr (.inr (.inr (.inr (.inr (.inr (.inr ⟨rfl, h1, h2⟩))))))

/-! ## Runs -/

theorem run_next (M : Host.Core) (k : Nat) (s t : M.State) (h : M.step s = .next t) : M.run (k + 1) s = M.run k t := by
  have e : M.run (k + 1) s = (match M.step s with
    | .next s' => M.run k s'
    | .fault r => .fault r
    | .refused r => .refused r) := rfl
  rw [e, h]

/-- A run takes its first step. -/
theorem core_run_next (k : Nat) (s t : State) (h : step s = .next t) : Sys2Proof.core.run (k + 1) s = Sys2Proof.core.run k t :=
  run_next Sys2Proof.core k s t h

end Sys2Proof.Machine
end

