-- ==== Sys2Proof/Laws/Invariant.lean ====
section
/-! SUPPORT. What each write keeps of the invariants (10_state.md R31), and their arithmetic. -/

namespace Sys2Proof.Machine

/-- `OP + 1` never wraps below `TOTAL` (10_state.md R13). -/
theorem op_add_one {s : State} (h : s.op.toNat < s.total.toNat) : (s.op + 1#32).toNat = s.op.toNat + 1 := by
  have := s.total.isLt
  rw [BitVec.toNat_add]; simp; omega

/-- `PKT_CNT - 1` never wraps where a pixel of the packet is left (40_rle_packets.md R96). -/
theorem pktCnt_sub_one {c : BitVec 8} (h : 1 ≤ c.toNat) : (c - 1#8).toNat = c.toNat - 1 := by
  have := c.isLt
  rw [BitVec.toNat_sub]; simp; omega

theorem pktCnt_eq_zero {c : BitVec 8} : c = 0#8 ↔ c.toNat = 0 := by
  rw [BitVec.toNat_inj.symm]; simp

/-- In a run the next pixel has a place in `OUT`: START has checked it (10_state.md R22 item 5). -/
theorem Inv.op_lt_outCap {s : State} (hi : Inv s) (hb : s.seq.busy) : s.op.toNat < s.par.outCap := by
  have h1 := hi.opBusy hb
  obtain ⟨h2, h3⟩ := hi.busyLegal hb
  have := Cfg.legal_pixels h2
  omega

/-- `STATUS.OVR` is 0 during a run. -/
theorem Inv.ovr_false_of_busy {s : State} (h : Inv s) (hb : s.seq.busy) : s.ovr = false := by
  cases hh : s.ovr
  · rfl
  · have := h.ovrDone hh; simp [this, SeqState.busy] at hb

/-- In state `REP` a fetch of the run has succeeded, so `IP <= IN_LEN`. -/
theorem Inv.ip_le_of_rep {s : State} (h : Inv s) (hb : s.seq = .rep) : s.ip ≤ s.cfg.inLen := by
  rcases h.ipBusy (by simp [hb, SeqState.busy]) with h1 | ⟨-, -, h1⟩
  · exact h1
  · simp [hb] at h1

theorem Inv.setDraws {s : State} (h : Inv s) (d : Nat) : Inv (s.setDraws d) := by
  cases h; constructor <;> simpa using ‹_›

/-- Error entry. -/
theorem Inv.raise {s : State} (h : Inv s) (e : ErrCode) (he : e ≠ .none) (hd : s.ovr = false) : Inv (s.raise e) := by
  have h1 := h.widths; have h2 := h.canonical; have h3 := h.sizes; have h4 := h.opLe
  constructor <;> simp_all [SeqState.busy]

/-- Emitting a pixel. -/
theorem Inv.emitted {s : State} (h : Inv s) (px : Rgba) (hb : s.seq.busy)
    (hc : s.cfg.rle = true → 1 ≤ s.pktCnt.toNat ∧ s.pktCnt.toNat ≤ 128)
    (hip : s.ip ≤ s.cfg.inLen) (hne : s.seq ≠ .hdr) (hrep : s.seq = .rep → s.cfg.rle = true ∧ s.pktRun = true) : Inv (s.emitted px) := by
  have hop := h.opBusy hb
  have hs := op_add_one hop
  have hcap := Inv.op_lt_outCap h hb
  have hseq : (s.emitted px).seq = .done ∨ (s.emitted px).seq = .hdr ∨ (s.emitted px).seq = s.seq := by
    simp only [State.emitted_fields, endState]; split; · simp
    split <;> simp
  have hlast : (s.emitted px).seq = .done ↔ s.op + 1#32 = s.total := by
    simp only [State.emitted_fields, endState]
    split
    · simp [*]
    · split
      · simp [*]
      · simp [*]; intro h; simp [h, SeqState.busy] at hb
  have hovr0 : s.ovr = false := by
    cases hh : s.ovr
    · rfl
    · have := h.ovrDone hh; simp [this, SeqState.busy] at hb
  have herr0 : s.err = .none := by
    by_contra hh
    have := h.errIff.mp hh; simp [this, SeqState.busy] at hb
  have hne2 : s.seq ≠ .err ∧ s.seq ≠ .done ∧ s.seq ≠ .idle := by
    refine ⟨?_, ?_, ?_⟩ <;> intro hh <;> simp [hh, SeqState.busy] at hb
  have hbusy : (s.emitted px).seq.busy → (s.op.toNat + 1 < s.total.toNat) := by
    intro hh
    have : ¬ (s.emitted px).seq = .done := by intro h2; rw [h2] at hh; simp [SeqState.busy] at hh
    rw [hlast, BitVec.toNat_inj.symm, hs] at this
    omega
  have hcnt : s.cfg.rle = true → s.nextCnt.toNat = s.pktCnt.toNat - 1 := fun hr => by
    simp only [State.nextCnt, hr, if_true]; exact pktCnt_sub_one (hc hr).1
  have hseq2 : (s.emitted px).seq = s.seq → s.cfg.rle = true → 1 ≤ s.nextCnt.toNat := by
    intro h1 hr
    simp only [State.emitted_fields, endState] at h1
    split at h1
    · exact absurd h1.symm hne2.2.1
    · split at h1
      · exact absurd h1.symm hne
      · rename_i h3
        simp [hr, pktCnt_eq_zero] at h3
        omega
  have hhdr : (s.emitted px).seq = .hdr → s.cfg.rle = true ∧ s.nextCnt = 0#8 := by
    intro h1
    simp only [State.emitted_fields, endState] at h1
    split at h1
    · cases h1
    · split at h1
      · rename_i h3; simpa using h3
      · exact absurd h1 hne
  have hbound : 4 * (s.op.toNat + 1) ≤ 4 * s.par.outCap := by omega
  constructor
  case widths => simpa using h.widths
  case canonical => obtain ⟨a, b, c⟩ := h.canonical; simp [a, b, Mem.wf_write _ _ _ c]
  case sizes =>
    obtain ⟨a, b, c⟩ := h.sizes
    exact ⟨by simpa using a, by simpa using b, by
      simp only [State.emitted_fields]; exact Mem.below_write _ _ _ _ c (by simp [Rgba.outBytes]; omega)⟩
  case opLe => simp only [State.emitted_fields]; omega
  case opBusy => intro hh; have := hbusy hh; simp only [State.emitted_fields]; omega
  case opDone =>
    intro hh; rw [hlast] at hh; simp only [State.emitted_fields]; rw [hh]
  case ipBusy => intro _; left; simpa using hip
  case errIff =>
    simp only [State.emitted_fields, herr0]
    simp only [ne_eq, not_true_eq_false, false_iff]
    intro hh
    have hh : (s.emitted px).seq = .err := by simpa using hh
    rcases hseq with h1 | h1 | h1 <;> rw [h1] at hh
    · cases hh
    · cases hh
    · exact hne2.1 hh
  case cntPix =>
    intro h1 hr
    have hr : s.cfg.rle = true := by simpa using hr
    have h2 : (s.emitted px).seq = s.seq := by
      rcases hseq with h2 | h2 | h2
      · rw [h1] at h2; cases h2
      · rw [h1] at h2; cases h2
      · exact h2
    have := hseq2 h2 hr
    have := hcnt hr; have := hc hr
    simp only [State.emitted_fields]; omega
  case cntRep =>
    intro h1
    have h2 : (s.emitted px).seq = s.seq := by
      rcases hseq with h2 | h2 | h2
      · rw [h1] at h2; cases h2
      · rw [h1] at h2; cases h2
      · exact h2
    obtain ⟨hr, hp⟩ := hrep (h2 ▸ h1)
    have := hseq2 h2 hr
    have := hcnt hr; have := hc hr
    simp only [State.emitted_fields, hp]
    exact ⟨by omega, by omega, trivial⟩
  case cntHdr => intro h1; simpa using (hhdr h1).2
  case rawStates =>
    rintro (h1 | h1)
    · simpa using (hhdr h1).1
    · have h2 : (s.emitted px).seq = s.seq := by
        rcases hseq with h2 | h2 | h2
        · rw [h1] at h2; cases h2
        · rw [h1] at h2; cases h2
        · exact h2
      simpa using (hrep (h2 ▸ h1)).1
  case rawCnt =>
    intro h1 hr
    have h2 : (s.emitted px).seq = s.seq := by
      rcases hseq with h2 | h2 | h2
      · rw [h1] at h2; cases h2
      · rw [h1] at h2; cases h2
      · exact h2
    have hr : s.cfg.rle = false := by simpa using hr
    simpa [State.nextCnt, hr] using h.rawCnt (h2 ▸ h1) hr
  case written =>
    intro _ a ha
    simp only [State.emitted_fields, hs] at ha ⊢
    rw [Mem.get?_write]
    split
    · rename_i h3
      simp [Rgba.outBytes] at h3 ⊢
      omega
    · rename_i h3
      exact h.written (.inl hb) a (by simp [Rgba.outBytes] at h3; omega)
  case ovrDone =>
    intro hh
    rw [hlast]
    simp only [State.emitted_fields, endOverrun, hovr0] at hh
    split at hh
    · rename_i h3; simp at h3; exact h3.1.1
    · cases hh
  case busyLegal => intro _; simpa using h.busyLegal hb

/-- The HDR step's writes. -/
theorem Inv.opened {s : State} (h : Inv s) (hs : s.seq = .hdr) (hp : s.present 1 = true) (r : Bool) (c : Nat) (h1 : 1 ≤ c) (h2 : c ≤ 128) :
    Inv (s.opened r c) := by
  have hb : s.seq.busy := by simp [hs, SeqState.busy]
  have a1 := h.widths; have a2 := h.canonical; have a3 := h.sizes; have a4 := h.opLe; have a5 := h.opBusy hb
  have a6 := h.errIff; have a7 := h.rawStates (.inl hs); have a8 := h.written (.inl hb); have a9 := h.ovrDone; have a10 := h.busyLegal hb
  simp only [State.present, decide_eq_true_eq] at hp
  have e1 : s.err = .none := by simpa [hs] using a6
  have e2 : s.ovr = false := by simpa [hs] using a9
  have e3 : (BitVec.ofNat 8 c).toNat = c := by simp; omega
  constructor <;> simp only [State.opened_fields, SeqState.busy] <;> simp_all <;> omega

/-- The writes of R88. -/
theorem Inv.latched {s : State} (h : Inv s) (hs : s.seq = .pix) (hp : s.present s.cfg.bytes = true) (hr : s.cfg.rle = true) (hr2 : s.pktRun = true) (px : Rgba) :
    Inv ((s.advance s.cfg.bytes).latched px) := by
  have hb : s.seq.busy := by simp [hs, SeqState.busy]
  have a1 := h.widths; have a2 := h.canonical; have a3 := h.sizes; have a4 := h.opLe; have a5 := h.opBusy hb
  have a6 := h.errIff; have a8 := h.written (.inl hb); have a9 := h.ovrDone; have a10 := h.busyLegal hb
  have a11 := h.cntPix hs hr
  simp only [State.present, decide_eq_true_eq] at hp
  have e1 : s.err = .none := by simpa [hs] using a6
  have e2 : s.ovr = false := by simpa [hs] using a9
  constructor <;> simp only [State.latched_fields, State.advance_fields, SeqState.busy] <;> simp_all
  omega

/-- `IP` past a pixel that exists. -/
theorem Inv.advance {s : State} (h : Inv s) (hs : s.seq = .pix) (hp : s.present s.cfg.bytes = true) : Inv (s.advance s.cfg.bytes) := by
  have hb : s.seq.busy := by simp [hs, SeqState.busy]
  have a1 := h.widths; have a2 := h.canonical; have a3 := h.sizes; have a4 := h.opLe; have a5 := h.opBusy hb
  have a6 := h.errIff; have a8 := h.written (.inl hb); have a9 := h.ovrDone; have a10 := h.busyLegal hb
  have a11 := h.cntPix hs; have a12 := h.rawCnt hs
  simp only [State.present, decide_eq_true_eq] at hp
  constructor <;> simp only [State.advance_fields, SeqState.busy] <;> simp_all
  omega

/-- A legal START. -/
theorem Inv.started {s : State} (h : Inv s) (hl : s.cfg.legal s.par) : Inv s.started := by
  have a1 := h.widths; have a2 := h.canonical; have a3 := h.sizes
  have hlt := Cfg.pixels_lt s.cfg
  have e : (BitVec.ofNat 32 s.cfg.pixels).toNat = s.cfg.pixels := by simpa using hlt
  by_cases h0 : s.cfg.pixels = 0
  · constructor <;> simp_all [SeqState.busy]
  · cases hr : s.cfg.rle
    · constructor <;> simp [SeqState.busy, a1, a2, a3, h0, hr, hl] <;> omega
    · constructor <;> simp [SeqState.busy, a1, a2, a3, h0, hr, hl] <;> omega

/-- A write of the configuration outside BUSY. -/
theorem Inv.of_cfg {s : State} (h : Inv s) (hb : s.seq.busy = false) (c : Cfg) (h1 : c.inStart < 2 ^ s.par.inAW) (h2 : c.inLen < 2 ^ s.par.inAW) :
    Inv { s with cfg := c } := by
  have a1 := h.widths; have a2 := h.canonical; have a3 := h.sizes; have a4 := h.opLe
  have a5 := h.opDone; have a6 := h.errIff; have a7 := h.written; have a8 := h.ovrDone
  have n1 : s.seq ≠ .pix := by rintro hh; simp [hh, SeqState.busy] at hb
  have n2 : s.seq ≠ .hdr := by rintro hh; simp [hh, SeqState.busy] at hb
  have n3 : s.seq ≠ .rep := by rintro hh; simp [hh, SeqState.busy] at hb
  constructor <;> simp_all

/-- A host write of `IN` or `PAL`, and a host read. -/
theorem Inv.mems {s : State} (h : Inv s) (i p : Mem) (hi : i.wf ∧ i.below (2 ^ s.par.inAW)) (hp : p.wf ∧ p.below Config.palBytes) (st : Bool) (rd d : Nat) :
    Inv { s with inMem := i, palMem := p, inStale := st, rdata := rd, draws := d } := by
  cases h
  constructor <;> simp_all

/-- A host write of `OUT` outside BUSY. -/
theorem Inv.out {s : State} (h : Inv s) (a : Nat) (v : Byte) (hb : s.seq.busy = false) (ha : a < 4 * s.par.outCap) :
    Inv { s with outMem := s.outMem.set a v } := by
  have a1 := h.widths; have a2 := h.canonical; have a3 := h.sizes; have a4 := h.opLe
  have a5 := h.opDone; have a6 := h.errIff; have a7 := h.written; have a8 := h.ovrDone
  have n1 : s.seq ≠ .pix := by rintro hh; simp [hh, SeqState.busy] at hb
  have n2 : s.seq ≠ .hdr := by rintro hh; simp [hh, SeqState.busy] at hb
  have n3 : s.seq ≠ .rep := by rintro hh; simp [hh, SeqState.busy] at hb
  have w := Mem.wf_set s.outMem a v a2.2.2
  have b := Mem.below_set s.outMem _ a v a3.2.2 ha
  constructor <;> simp_all
  intro hd k hk
  rw [Mem.get?_set]
  split
  · simp
  · exact a7 hd k hk

theorem Inv.moves {s : State} (h : Inv s) (m : List Move) : Inv { s with moves := m } := by
  cases h; constructor <;> simp_all

/-- A register write keeps `IN_START` and `IN_LEN` within `IN_AW` bits (10_state.md R19). -/
theorem cfg_write_widths (c : Cfg) (aw n v : Nat) (h1 : c.inStart < 2 ^ aw) (h2 : c.inLen < 2 ^ aw) :
    (c.write aw n v).inStart < 2 ^ aw ∧ (c.write aw n v).inLen < 2 ^ aw := by
  have : v % 2 ^ aw < 2 ^ aw := Nat.mod_lt _ (Nat.two_pow_pos aw)
  unfold Cfg.write
  split <;> exact ⟨by assumption, by assumption⟩

theorem Inv.returnsFree {s : State} (h : Inv s) : Inv s.returnsFree := by
  exact Inv.mems h s.inMem s.palMem ⟨h.canonical.1, h.sizes.1⟩ ⟨h.canonical.2.1, h.sizes.2.1⟩ s.inStale (Config.freeByte s.draws).toNat (s.draws + 1)

theorem Inv.returns {s : State} (h : Inv s) (v : Nat) : Inv (s.returns v) := by
  exact Inv.mems h s.inMem s.palMem ⟨h.canonical.1, h.sizes.1⟩ ⟨h.canonical.2.1, h.sizes.2.1⟩ s.inStale v s.draws

theorem Inv.returnsByte {s : State} (h : Inv s) (v : Option Byte) : Inv (s.returnsByte v) := by
  cases v
  · exact h.returnsFree
  · exact h.returns _

end Sys2Proof.Machine
end

