-- ==== Sys2Proof/Laws/Items.lean ====
section
/-! SUPPORT. What one item does whose bytes, format and place in `OUT` are known. -/

namespace Sys2Proof.Machine

/-- A header byte's kind and count as numbers (30_encoding.md R61, R62). -/
theorem header_fields (h : Byte) : headerIsRun h = decide (128 ≤ h.toNat) ∧ headerCount h = h.toNat % 128 + 1 := by
  have := h.isLt
  constructor
  · simp only [headerIsRun, BitVec.getLsbD, Nat.testBit_eq_decide_div_mod_eq]; simp; omega
  · simp only [headerCount, BitVec.extractLsb'_toNat, Nat.shiftRight_eq_div_pow]; simp

/-- `scale5` as arithmetic (41_pixel_expander.md R110). -/
theorem scale5_eq (c : BitVec 5) : scale5 c = BitVec.ofNat 8 (8 * c.toNat + c.toNat / 4) := by revert c; decide

/-- A pixel that can be taken and expands to `px` is delivered as `px`. -/
theorem pixStep_ready {s : State} {p : Pixel} {px : Rgba} {d : Nat} (h : PixelReady p.fmt s) (he : expand p s = .pixel px d) :
    ∃ t, pixStep p s = .next t ∧ Delivered px p.fmt.bytes { s with draws := d } t := by
  obtain ⟨h1, h2, h3, h4⟩ := h
  have hb := Cfg.bytes_of_format h2
  obtain ⟨t, ht, hd⟩ := deliver_spec px (s.setDraws d) h4
  refine ⟨t, ?_, ?_⟩
  · unfold pixStep
    rw [if_pos ⟨h1, h2⟩, if_pos (by simpa [State.present, hb] using h3), he]
    exact ht
  · rw [← hb]; exact hd

/-- A palette entry of the configuration's format is delivered as its colour. -/
theorem entryStep_ready {s : State} {e : PalEntry} (h : PixelReady .pal8 s) (hf : s.cfg.palFormat = some e.fmt) :
    ∃ t, entryStep e s = .next t ∧ Delivered (expandEntry s.cfg.alpha e) 1 s t := by
  obtain ⟨h1, h2, h3, h4⟩ := h
  have hb := Cfg.bytes_of_format h2
  obtain ⟨t, ht, hd⟩ := deliver_spec (expandEntry s.cfg.alpha e) s h4
  rw [hb] at hd
  refine ⟨t, ?_, hd⟩
  unfold entryStep
  rw [if_pos ⟨h1, h2, hf⟩, if_pos (by simpa [State.present, hb] using h3)]
  exact ht

/-- The expander reads the configuration, `PAL` and the count of free values, and nothing else (41_pixel_expander.md R100). -/
theorem expand_congr {s t : State} (p : Pixel) (h1 : t.cfg = s.cfg) (h2 : t.palMem = s.palMem) (h3 : t.draws = s.draws) :
    expand p t = expand p s := by
  cases p <;> simp only [expand, expandPal8, State.entryBytes, h1, h2, h3]

/-- Bytes of `IN` that are known are fetched as they are. -/
theorem fetch_known (s : State) (bs : List Byte) (h : s.inStale = false) (hb : ∀ k, k < bs.length → s.inMem.get? (s.ip + k) = bs[k]?) :
    s.fetch bs.length = (bs, s.draws) := by
  apply readBytes_known s.inByte bs s.ip s.draws
  intro k hk
  simp only [State.inByte, h, Bool.false_eq_true, if_false]
  exact hb k hk

/-- Once the host has disturbed the run, a fetch gives free values only (20_memory.md R54). -/
theorem fetch_stale (s : State) (n : Nat) (h : s.inStale = true) :
    s.fetch n = ((List.range n).map (fun k => Config.freeByte (s.draws + k)), s.draws + n) := by
  have e : s.inByte = fun _ => none := by funext a; simp [State.inByte, h]
  rw [State.fetch, e, readBytes_unknown]

end Sys2Proof.Machine
end

