-- ==== Sys2Proof/Laws/PerInstr.lean ====
section
/-! SUPPORT. Facts about every instruction as syntax, one lemma per constructor. -/

namespace Sys2Proof.Laws.EncodeLength

/-- An instruction's encoding has as many bytes as an item of its kind (30_encoding.md R61, R63, R65). -/
def Statement (i : Instr) : Prop := (encode i).length = i.kind.bytes

theorem run (c : Nat) : Statement (.run c) := rfl
theorem lit (c : Nat) : Statement (.lit c) := rfl
theorem rawpx (p : Pixel) : Statement (.rawpx p) := by cases p <;> rfl
theorem pxTrue32 (b g r a : Byte) : Statement (.pxTrue32 b g r a) := rfl
theorem pxTrue24 (b g r : Byte) : Statement (.pxTrue24 b g r) := rfl
theorem pxTrue16 (b g r : BitVec 5) (a : BitVec 1) : Statement (.pxTrue16 b g r a) := rfl
theorem pxMono16 (y a : Byte) : Statement (.pxMono16 y a) := rfl
theorem pxMono8 (y : Byte) : Statement (.pxMono8 y) := rfl
theorem pxPal8 (i : Byte) : Statement (.pxPal8 i) := rfl
theorem pe24 (b g r : Byte) : Statement (.pe24 b g r) := rfl
theorem pe32 (b g r a : Byte) : Statement (.pe32 b g r a) := rfl
theorem pe16 (b g r : BitVec 5) (x : BitVec 1) : Statement (.pe16 b g r x) := rfl
theorem start : Statement .start := rfl
theorem clear : Statement .clear := rfl

end Sys2Proof.Laws.EncodeLength
end

