-- ==== Sys2Proof/Tests/Slice0.lean ====
section
/-! SUPPORT. The model's own tests, whose expected values are those of 95_test_vectors.md, and for every statement with hypotheses a
concrete case that meets them. -/

namespace Sys2Proof.Tests

open Sys2Proof.Machine

/-! ## Helpers -/

/-- The next state, where there is one. -/
def after : Result → Option State
  | .next t => some t
  | .fault _ => none
  | .refused _ => none

/-- The bytes of `OUT` after a step. -/
def outAfter (r : Result) : Option (List Byte) := (after r).map (fun t => t.outMem.map Prod.snd)

/-- `STATUS` and `IP` after a step. -/
def endAfter (r : Result) : Option (Nat × Nat) := (after r).map (fun t => (t.status.toNat, t.ip))

/-- A configuration for `len` bytes of input. -/
def cfgOf (rle : BitVec 1) (typ : BitVec 2) (bpp alpha : Nat) (w h : BitVec 16) (len : Nat) : Cfg :=
  { Cfg.reset with
    ctrl := rle, imgType := typ, bpp := BitVec.ofNat 8 bpp, hasAlpha := BitVec.ofNat 1 alpha, width := w, height := h, inLen := len }

/-- A state of a run over the bytes `bs` of `IN`, at address 0. -/
def runState (c : Cfg) (seq : SeqState) (bs : List Byte) : State :=
  { State.reset with cfg := c, seq := seq, total := BitVec.ofNat 32 c.pixels, inMem := Mem.ofBytes 0 bs }

/-- One pixel, alone in a raw packet and in its image. -/
def litState (typ : BitVec 2) (bpp alpha : Nat) (bs : List Byte) : State :=
  { runState (cfgOf 1 typ bpp alpha 1 1 bs.length) .pix bs with pktCnt := 1 }

/-- A paletted pixel, alone in a raw packet and in its image. -/
def palState (palBpp : BitVec 8) (count : BitVec 16) (alpha : Nat) (pal bs : List Byte) : State :=
  { litState 1 8 alpha bs with
    cfg := { cfgOf 1 1 8 alpha 1 1 bs.length with palBpp := palBpp, palCount := count }
    palMem := Mem.ofBytes 0 pal }

/-- The packet `RUN 2, [10 20 30]` (vector Q1) before its header, in an image of `w` by 1 pixels. -/
def runHdr (w : BitVec 16) : State := runState (cfgOf 1 2 24 0 w 1 4) .hdr [0x81, 0x10, 0x20, 0x30]

/-- The same packet after its header and its pixel. -/
def runRep (w : BitVec 16) (cnt : BitVec 8) : State :=
  { runHdr w with seq := .rep, ip := 4, pktCnt := cnt, pktRun := true, px := ⟨0x30, 0x20, 0x10, 0xFF⟩ }

/-- The packet `LIT 2` of two `PX.MONO8` pixels before its header. -/
def litHdr : State := runState (cfgOf 1 3 8 0 2 1 3) .hdr [0x01, 0x08, 0x09]

/-- A raw-mode run over two `PX.MONO8` pixels (vector Q10). -/
def rawPix : State := runState (cfgOf 0 3 8 0 2 1 4) .pix [0xC8, 0x10, 0x99, 0x99]

/-- The end of a run over a one-pixel image. -/
def doneState : State :=
  { runState (cfgOf 1 3 8 0 1 1 2) .done [0x00, 0x55] with
    ip := 2, op := 1, outMem := Mem.ofBytes 0 [0x55, 0x55, 0x55, 0xFF] }

/-- The state after E_PALIDX (vector H14). -/
def errState : State := { State.reset with seq := .err, err := .ePalIdx }

/-! ## Well-formedness: each check refuses an ill-formed term -/

theorem test_wf_run : Instr.wf (.run 0) = false ∧ Instr.wf (.run 129) = false ∧ Instr.wf (.run 128) = true := by decide
theorem test_wf_lit : Instr.wf (.lit 0) = false ∧ Instr.wf (.lit 129) = false ∧ Instr.wf (.lit 1) = true := by decide

/-! ## Decoding: words written out from 30_encoding.md, bit by bit -/

/-- R61: `1_0000010` is `RUN 3`, `1_1111111` is `RUN 128`. -/
theorem test_decode_run : decode .header [0b10000010] = .ok (.run 3, []) ∧ decode .header [0b11111111] = .ok (.run 128, []) := by
  decide
/-- R61: `0_0000000` is `LIT 1`, `0_1111110` is `LIT 127`. -/
theorem test_decode_lit : decode .header [0b00000000] = .ok (.lit 1, []) ∧ decode .header [0b01111110] = .ok (.lit 127, []) := by
  decide
/-- R63: blue, green, red, alpha in address order. -/
theorem test_decode_true32 : decode (.pixel .true32) [0x11, 0x22, 0x33, 0x44, 0x99] = .ok (.pxTrue32 0x11 0x22 0x33 0x44, [0x99]) := by
  decide
theorem test_decode_true24 : decode (.pixel .true24) [0x01, 0x02, 0xFF] = .ok (.pxTrue24 0x01 0x02 0xFF, []) := by decide
/-- R63: the word `1_00001_00010_00011`, low byte first. -/
theorem test_decode_true16 : decode (.pixel .true16) [0b01000011, 0b10000100] = .ok (.pxTrue16 3 2 1 1, []) := by decide
theorem test_decode_mono16 : decode (.pixel .mono16) [0x80, 0x40] = .ok (.pxMono16 0x80 0x40, []) := by decide
theorem test_decode_mono8 : decode (.pixel .mono8) [0xC8] = .ok (.pxMono8 0xC8, []) := by decide
theorem test_decode_pal8 : decode (.pixel .pal8) [0xFF] = .ok (.pxPal8 0xFF, []) := by decide
theorem test_decode_rawpx : decode (.rawPixel .true24) [0x10, 0x20, 0x30] = .ok (.rawpx (.true24 0x10 0x20 0x30), []) := by decide
theorem test_decode_pe24 : decode (.palEntry .pe24) [0x10, 0x20, 0x30] = .ok (.pe24 0x10 0x20 0x30, []) := by decide
theorem test_decode_pe32 : decode (.palEntry .pe32) [0x10, 0x20, 0x30, 0x40] = .ok (.pe32 0x10 0x20 0x30 0x40, []) := by decide
/-- R65: the word `0_11111_00000_00001`. -/
theorem test_decode_pe16 : decode (.palEntry .pe16) [0b00000001, 0b01111100] = .ok (.pe16 1 0 31 0, []) := by decide
/-- R23: 1 is START, 2 is CLEAR, 0 and 3 are no commands. -/
theorem test_decode_command : decode .command [1] = .ok (.start, []) ∧ decode .command [2] = .ok (.clear, [])
    ∧ decode .command [0] = .error .noCommand ∧ decode .command [3] = .error .noCommand := by decide
/-- A pixel of which a byte is missing is no item. -/
theorem test_decode_short : decode (.pixel .true24) [0x10, 0x20] = .error .short := by decide

/-- The table's words without a context (log entry 10). -/
theorem test_table_words : decodeTableWord 8 0x80 = some (.run 1) ∧ decodeTableWord 8 0x00 = some (.lit 1)
    ∧ decodeTableWord 16 0x7C00 = some (.pxTrue16 0 0 31 0) ∧ decodeTableWord 24 0x302010 = some (.pxTrue24 0x10 0x20 0x30)
    ∧ decodeTableWord 32 0x44332211 = some (.pxTrue32 0x11 0x22 0x33 0x44) ∧ decodeTableWord 8 1 = some .start
    ∧ decodeTableWord 8 2 = some .clear := by decide
/-- The next step runs the word that was placed, from the reset state. -/
theorem test_placed_run : (after (step (State.reset.withFetchWord 8 0x82))).map (fun t => (t.pktRun, t.pktCnt, t.seq, t.ip))
    = some (true, 3, .pix, 1) := by decide
theorem test_placed_pixel : outAfter (step (State.reset.withFetchWord 24 0x302010)) = some [0x30, 0x20, 0x10, 0xFF] := by decide
/-- Vector H1. -/
theorem test_placed_start : endAfter (step (State.reset.withFetchWord 8 1)) = some (0x015, 0) := by decide

/-! ## One step of each instruction (95_test_vectors.md) -/

/-- 2.1: header `FF`. -/
theorem test_run : (after (step (runState (cfgOf 1 2 24 0 4 1 1) .hdr [0xFF]))).map (fun t => (t.pktRun, t.pktCnt, t.ip, t.seq))
    = some (true, 128, 1, .pix) := by decide
/-- 2.1: header `7F`. -/
theorem test_lit : (after (step (runState (cfgOf 1 2 24 0 4 1 1) .hdr [0x7F]))).map (fun t => (t.pktRun, t.pktCnt, t.ip, t.seq))
    = some (false, 128, 1, .pix) := by decide
/-- Vector Q7: no header byte. -/
theorem test_run_truncated : endAfter (step (runState (cfgOf 1 2 24 0 4 1 0) .hdr [])) = some (0x025, 0) := by decide
/-- R86, worked example. -/
theorem test_rawpx : (after (step (runState (cfgOf 0 2 24 0 1 1 3) .pix [0x10, 0x20, 0x30]))).map
    (fun t => (t.outMem, t.ip, t.op, t.seq)) = some ([(0, 0x30), (1, 0x20), (2, 0x10), (3, 0xFF)], 3, 1, .done) := by decide
/-- Vector Q10, first step: the image goes on and `PKT_CNT` stays 0. -/
theorem test_rawpx_goes_on : (after (step rawPix)).map (fun t => (t.op, t.pktCnt, t.seq)) = some (1, 0, .pix) := by decide
/-- Vectors E1 and E2. -/
theorem test_true32 : outAfter (step (litState 2 32 1 [0x11, 0x22, 0x33, 0x44])) = some [0x33, 0x22, 0x11, 0x44]
    ∧ outAfter (step (litState 2 32 0 [0x11, 0x22, 0x33, 0x44])) = some [0x33, 0x22, 0x11, 0xFF] := by decide
/-- Vector E3. -/
theorem test_true24 : outAfter (step (litState 2 24 1 [0x00, 0x00, 0xFF])) = some [0xFF, 0x00, 0x00, 0xFF] := by decide
/-- Vectors E4, E4a and E4b. -/
theorem test_true16 : outAfter (step (litState 2 16 0 [0x00, 0x7C])) = some [0xFF, 0x00, 0x00, 0xFF]
    ∧ outAfter (step (litState 2 16 1 [0x00, 0x7C])) = some [0xFF, 0x00, 0x00, 0x00]
    ∧ outAfter (step (litState 2 16 1 [0x00, 0xFC])) = some [0xFF, 0x00, 0x00, 0xFF] := by decide
/-- Vectors E5f and E5h. -/
theorem test_true16_scale5 : outAfter (step (litState 2 16 0 [0x10, 0x42])) = some [0x84, 0x84, 0x84, 0xFF]
    ∧ outAfter (step (litState 2 16 0 [0xF7, 0x5E])) = some [0xBD, 0xBD, 0xBD, 0xFF] := by decide
/-- Vectors E6 and E7. -/
theorem test_mono16 : outAfter (step (litState 3 16 1 [0x80, 0x40])) = some [0x80, 0x80, 0x80, 0x40]
    ∧ outAfter (step (litState 3 16 0 [0x80, 0x40])) = some [0x80, 0x80, 0x80, 0xFF] := by decide
/-- Vector E9. -/
theorem test_mono8 : outAfter (step (litState 3 8 1 [0xC8])) = some [0xC8, 0xC8, 0xC8, 0xFF] := by decide
/-- Vectors E10, E11 and E13a. -/
theorem test_pal8 :
    outAfter (step (palState 24 3 0 [0x00, 0x00, 0xFF, 0x00, 0xFF, 0x00, 0xFF, 0x00, 0x00] [0x02])) = some [0x00, 0x00, 0xFF, 0xFF]
    ∧ outAfter (step (palState 32 2 1 [0x10, 0x20, 0x30, 0x40, 0x50, 0x60, 0x70, 0x80] [0x01])) = some [0x70, 0x60, 0x50, 0x80]
    ∧ outAfter (step (palState 15 4 1 [0x1F, 0x00, 0xE0, 0x03, 0x00, 0x7C, 0xFF, 0xFF] [0x02])) = some [0xFF, 0x00, 0x00, 0xFF] := by
  decide
/-- Vector E14: one past the palette. -/
theorem test_pal8_bound : endAfter (step (palState 24 3 0 [] [0x03])) = some (0x035, 0) := by decide
/-- R107, worked example. -/
theorem test_pe24 : outAfter (exec (.pe24 0x10 0x20 0x30) (palState 24 3 1 [] [0x02])) = some [0x30, 0x20, 0x10, 0xFF] := by decide
/-- R108, worked example. -/
theorem test_pe32 : outAfter (exec (.pe32 0x10 0x20 0x30 0x40) (palState 32 3 1 [] [0x02])) = some [0x30, 0x20, 0x10, 0x40]
    ∧ outAfter (exec (.pe32 0x10 0x20 0x30 0x40) (palState 32 3 0 [] [0x02])) = some [0x30, 0x20, 0x10, 0xFF] := by decide
/-- R109, worked example. -/
theorem test_pe16 : outAfter (exec (.pe16 31 0 0 0) (palState 16 3 1 [] [0x02])) = some [0x00, 0x00, 0xFF, 0xFF] := by decide
/-- R124, worked example. -/
theorem test_start : (after (exec .start
    { State.reset with cfg := { cfgOf 1 2 24 0 4 2 0 with inStart := 18 } })).map (fun t => (t.total, t.ip, t.op, t.seq))
    = some (8, 18, 0, .hdr) := by decide
/-- Vector H11. -/
theorem test_start_largest : (after (exec .start { State.reset with cfg := cfgOf 1 2 24 0 65535 65535 0 })).map (fun t => (t.total, t.seq))
    = some (0xFFFE0001, .hdr) := by decide
/-- Vectors H12 and Q8. -/
theorem test_start_corners : endAfter (exec .start { State.reset with cfg := cfgOf 1 2 24 0 40 26 0, par := { outCap := 1000 } })
      = some (0x015, 0)
    ∧ endAfter (exec .start { State.reset with cfg := { cfgOf 1 2 24 0 0 5 0 with inStart := 7 } }) = some (0x004, 7) := by decide
/-- Vectors H13 and H15; in state `PIX` CLEAR does nothing (vector H16). -/
theorem test_clear : endAfter (exec .clear { doneState with ovr := true }) = some (0x000, 2)
    ∧ endAfter (exec .clear errState) = some (0x000, 0) ∧ after (exec .clear rawPix) = some rawPix := by decide

/-! ## The other steps and the host's operations -/

/-- Vectors Q1 and P8: the first copy, and the last one of a packet that runs past the image. -/
theorem test_rep : (after (step (runRep 2 2))).map (fun t => (t.op, t.pktCnt, t.seq, t.ovr)) = some (1, 1, .rep, false)
    ∧ (after (step { runRep 2 3 with op := 1 })).map (fun t => (t.op, t.pktCnt, t.status)) = some (2, 2, 0x104) := by decide
/-- R80, rows `REP` and `PIX` with `PKT_CNT - 1 = 0`. -/
theorem test_packet_end : (after (step (runRep 4 1))).map (fun t => (t.op, t.pktCnt, t.seq)) = some (1, 0, .hdr)
    ∧ (after (step { rawPix with cfg := cfgOf 1 3 8 0 2 1 4, pktCnt := 1 })).map (fun t => (t.op, t.seq)) = some (1, .hdr) := by decide
/-- R88: the pixel of a run packet is held, and nothing is written. -/
theorem test_latch : (after (step { runHdr 2 with seq := .pix, ip := 1, pktCnt := 2, pktRun := true })).map
    (fun t => (t.px, t.seq, t.outMem, t.pktCnt, t.ip)) = some (⟨0x30, 0x20, 0x10, 0xFF⟩, .rep, [], 2, 4) := by decide
/-- Vectors H17, H16 and H18. -/
theorem test_register_writes : (after (hostOp (.writeReg 5 0x12345) State.reset)).map (fun t => t.readReg 5) = some 0x2345
    ∧ after (hostOp (.writeReg 2 32) rawPix) = some rawPix ∧ after (hostOp (.writeReg 10 3) State.reset) = some State.reset := by decide
/-- R127: the host reads the image in DONE. -/
theorem test_read_out : (after (hostOp (.readOut 3) doneState)).map State.rdata = some 0xFF := by decide
/-- R125, worked example: `STATUS = 0x025`. -/
theorem test_status : { errState with err := .eTrunc }.status = 0x025 := by decide
/-- R7: `PX = A || B || G || R`. -/
theorem test_pack : (Rgba.mk 0x11 0x22 0x33 0x44).pack = 0x44332211 := by decide

/-! ## The host's own work (95_test_vectors.md S4, S6, S7) -/

/-- S4: the pixels 0, 1, 2, 3 of a 2 by 2 image. -/
theorem test_orientation :
    (List.range 4).map (HostDuties.orientIndex 2 2 0x30) = [1, 0, 3, 2]
    ∧ (List.range 4).map (HostDuties.orientIndex 2 2 0x00) = [2, 3, 0, 1]
    ∧ (List.range 4).map (HostDuties.orientIndex 2 2 0x10) = [3, 2, 1, 0]
    ∧ (List.range 4).map (HostDuties.orientIndex 2 2 0x20) = [0, 1, 2, 3] := by decide

/-- The header of a 2 by 1 truecolor image of 24 bits. -/
def header24 : HostDuties.Header :=
  { idLength := 0, paletteType := 0, imageType := 10, paletteFirst := 0, paletteLength := 0, paletteBpp := 0, width := 2, height := 1,
    bpp := 24, flags := 0x20 }

/-- R168: the fields of 18 bytes. -/
theorem test_header : HostDuties.readHeader ([0, 0, 10, 0, 0, 0, 0, 0, 0] ++ [0, 0, 0, 2, 0, 1, 0, 24, 0x20]) = .ok header24
    ∧ header24.rle = 1 ∧ header24.kind = 2 ∧ HostDuties.readHeader [0] = .error .truncatedStream := by decide
/-- S7: an alpha size of 2 is refused; R171: so is a 24-bit image with alpha. -/
theorem test_alpha_size : HostDuties.validate { header24 with flags := 0x22 } = .error .malformedHeader
    ∧ HostDuties.validate { header24 with flags := 0x28 } = .error .malformedHeader
    ∧ HostDuties.validate header24 = .ok header24 := by decide
/-- S6 and R172: attribute byte 4 is premultiplied alpha, 3 independent, anything else none. -/
theorem test_attribute : HostDuties.attributePolicy 4 = (true, .premultiplied) ∧ HostDuties.attributePolicy 3 = (true, .nonPremultiplied)
    ∧ HostDuties.attributePolicy 2 = (false, .nonPremultiplied) := by decide

/-- The host's answer and the state of the block after it. -/
def answerOf (r : Host.Outcome (HostDuties.Answer × State) Fault Refusal) : Option (HostDuties.Answer × SeqState) :=
  match r with
  | .next (a, t) => some (a, t.seq)
  | .fault _ => none
  | .refused _ => none

/-- What the host knows of a one-pixel image. -/
def plan1 : HostDuties.Plan := { header := { header24 with width := 1 }, hasAlpha := false, model := .premultiplied, palette := [] }

/-- R163 items 6 and 7 and R174: the image after DONE, and the causes after ERR (R15: the codes 4 and 5; vector H14: `0x035`). -/
theorem test_finish : answerOf (HostDuties.finish plan1 { doneState with rdata := 0x004 })
      = some (.image ⟨[⟨0x55, 0x55, 0x55, 0xFF⟩], 1, 1, .premultiplied⟩, .idle)
    ∧ answerOf (HostDuties.finish plan1 { errState with rdata := 0x035 }) = some (.error .paletteIndexOutOfRange, .idle)
    ∧ HostDuties.reportOf 1 = .blockRefused ∧ HostDuties.reportOf 2 = .truncatedStream := by decide
/-- R163 item 4: a finished run is cleared before the next one. -/
theorem test_bring_to_idle : (after (HostDuties.bringToIdle 0 doneState)).map State.seq = some .idle := by decide
/-- R163 item 1: a file too short for a header does not touch the block. -/
theorem test_rejected : answerOf (HostDuties.decodeFile 9 [0, 0, 10] rawPix) = some (.error .truncatedStream, .pix) := by decide

/-! ## Witnesses: for each statement with hypotheses, cases that meet all of them -/

theorem inv_runHdr : Inv (runHdr 2) := by constructor <;> decide
theorem inv_runRep : Inv (runRep 2 2) := by constructor <;> decide
theorem inv_rawPix : Inv rawPix := by constructor <;> decide
theorem inv_litHdr : Inv litHdr := by constructor <;> decide
theorem inv_doneState : Inv doneState := by constructor <;> decide

/-- A paletted pixel in a packet; its index is the last legal one if `i = 2` and one too high if `i = 3`. -/
def palPix (i : Byte) : State := palState 24 3 0 (List.replicate 9 0x40) [i]

theorem inv_palPix : Inv (palPix 2) ∧ Inv (palPix 3) := by constructor <;> constructor <;> decide

/-- A pixel of a run packet, to be held. -/
def latchPix : State := { runHdr 2 with seq := .pix, ip := 1, pktCnt := 2, pktRun := true }

theorem inv_latchPix : Inv latchPix := by constructor <;> decide

/-- Two pixels of a raw packet are left, one byte of `IN` is. -/
def shortPix : State := { runState (cfgOf 1 2 24 0 2 1 1) .pix [0x10] with pktCnt := 2 }

theorem inv_shortPix : Inv shortPix := by constructor <;> decide

/-- `n` places in `OUT`. -/
def withCap (s : State) (n : Nat) : State := { s with par := { s.par with outCap := n } }

theorem witness_EveryStepKeepsTheInvariants : Inv (runHdr 2) ∧ (∃ t, step (runHdr 2) = .next t ∧ t ≠ runHdr 2)
    ∧ Inv doneState ∧ ∃ t, step { doneState with moves := [.host (.writeReg 10 2)] } = .next t :=
  ⟨inv_runHdr, ⟨_, rfl, by decide⟩, inv_doneState, _, rfl⟩
theorem witness_InvariantStatesNeverStop : Inv (runRep 2 2) ∧ (runRep 2 2).nextMoveAllowed = true
    ∧ State.nextMoveAllowed { runRep 2 2 with moves := [.host (.writeIn (2 ^ 32 - 1) 7)] } = true :=
  ⟨inv_runRep, by decide, by decide⟩
theorem witness_DecodeOfEncodeIsTheInstruction : Instr.wf (.run 128) = true ∧ Instr.wf (.lit 1) = true
    ∧ Instr.wf (.pxTrue16 31 0 31 1) = true := by decide
theorem witness_EncodeOfDecodeIsTheBytes : ItemKind.pixel .true16 ≠ .command
    ∧ decode (.pixel .true16) [0xFF, 0xFF, 0x01] = .ok (.pxTrue16 31 31 31 1, [0x01]) := by decide
theorem witness_DecoderIsTotalAndWellFormed : decode .header [0xFF] = .ok (.run 128, [])
    ∧ ItemKind.palEntry .pe32 ≠ .command ∧ (ItemKind.palEntry .pe32).bytes ≤ [1, 2, 3, 4].length
    ∧ (5 : Byte).toNat % 4 = 1 ∧ (2 : Byte).toNat % 4 = 2 := by decide
theorem witness_HeaderByteSaysKindAndCount : 128 ≤ (0x80 : Byte).toNat ∧ (0x7F : Byte).toNat < 128 := by decide
theorem witness_StepTakesTheNextMove : (runHdr 2).moves = []
    ∧ ∀ m ∈ [Move.block, .reset, .host (.readReg 13)], { runHdr 2 with moves := [m] }.moves = m :: [] := by
  exact ⟨rfl, fun _ _ => rfl⟩
theorem witness_BlockStepRunsTheDecodedItem :
    ((runHdr 2).seq = .hdr ∧ (runHdr 2).ip + 1 ≤ (runHdr 2).cfg.inLen ∧ decode .header ((runHdr 2).fetch 1).1 = .ok (.run 2, []))
    ∧ (latchPix.seq = .pix ∧ latchPix.cfg.format = some .true24 ∧ latchPix.cfg.rle = true ∧ latchPix.ip + 3 = latchPix.cfg.inLen
      ∧ decode (.pixel .true24) (latchPix.fetch 3).1 = .ok (.pxTrue24 0x10 0x20 0x30, []))
    ∧ (rawPix.seq = .pix ∧ rawPix.cfg.format = some .mono8 ∧ rawPix.cfg.rle = false ∧ rawPix.ip + 1 ≤ rawPix.cfg.inLen
      ∧ decode (.rawPixel .mono8) (rawPix.fetch 1).1 = .ok (.rawpx (.mono8 0xC8), []))
    ∧ State.reset.seq = .idle ∧ doneState.seq = .done ∧ errState.seq = .err := by decide
theorem witness_FetchReadsInInAddressOrder : latchPix.inStale = false
    ∧ ∀ k, k < [0x10, 0x20, 0x30].length → latchPix.inMem.get? (latchPix.ip + k) = ([0x10, 0x20, 0x30] : List Byte)[k]? := by decide
theorem witness_HdrStepFetchesAHeader : (runHdr 2).seq = .hdr ∧ (runHdr 2).ip < (runHdr 2).cfg.inLen ∧ (runHdr 2).inStale = false
    ∧ (runHdr 2).inMem.get? (runHdr 2).ip = some 0x81
    ∧ { runHdr 2 with ip := 4 }.seq = .hdr ∧ { runHdr 2 with ip := 4 }.cfg.inLen ≤ { runHdr 2 with ip := 4 }.ip := by decide
theorem witness_PacketHeadersComplete : { runHdr 2 with ip := 3 }.seq = .hdr ∧ { runHdr 2 with ip := 3 }.ip + 1 ≤ (runHdr 2).cfg.inLen
    ∧ (runHdr 2).cfg.inLen < { runHdr 2 with ip := 4 }.ip + 1 ∧ 1 ≤ 1 ∧ 128 ≤ 128 := by decide

/-- The pixel ends at `IN_LEN` and takes the last place in `OUT`. -/
theorem witness_PxTrue32Completes : PixelReady .true32 (withCap (litState 2 32 1 [1, 2, 3, 4]) 1) := by
  refine ⟨?_, ?_, ?_, ?_⟩ <;> decide
theorem witness_PxTrue24AndMono8Complete : PixelReady .true24 (withCap (litState 2 24 1 [1, 2, 3]) 1)
    ∧ PixelReady .mono8 (withCap (litState 3 8 0 [1]) 1) := by
  refine ⟨⟨?_, ?_, ?_, ?_⟩, ?_, ?_, ?_, ?_⟩ <;> decide
theorem witness_PxTrue16Completes : PixelReady .true16 (withCap (litState 2 16 1 [0, 0x7C]) 1) := by
  refine ⟨?_, ?_, ?_, ?_⟩ <;> decide
theorem witness_PxMono16Completes : PixelReady .mono16 (withCap (litState 3 16 1 [1, 2]) 1) := by
  refine ⟨?_, ?_, ?_, ?_⟩ <;> decide

theorem ready_pal8 : PixelReady .pal8 (palPix 2) := by refine ⟨?_, ?_, ?_, ?_⟩ <;> decide

theorem witness_PxPal8SelectsItsEntry : PixelReady .pal8 (palPix 2) ∧ (palPix 2).cfg.palFormat = some .pe24
    ∧ (2 : Byte).toNat < (palPix 2).cfg.palCount.toNat ∧ (palPix 2).cfg.palCount.toNat ≤ (3 : Byte).toNat :=
  ⟨ready_pal8, by decide⟩
/-- The last entry of `PAL` in each layout. -/
theorem witness_PxPal8DeliversTheEntryBytes :
    (PixelReady .pal8 (palPix 2) ∧ (2 : Byte).toNat < (palPix 2).cfg.palCount.toNat ∧ (palPix 2).cfg.palBpp = 24
      ∧ (palPix 2).palMem.get? 6 = some 0x40 ∧ (palPix 2).palMem.get? 7 = some 0x40 ∧ (palPix 2).palMem.get? 8 = some 0x40)
    ∧ (PixelReady .pal8 (palState 32 300 1 [] [0xFF]) ∧ (0xFF : Byte).toNat < (palState 32 300 1 [] [0xFF]).cfg.palCount.toNat
      ∧ { palState 32 300 1 [] [0xFF] with palMem := Mem.ofBytes 1020 [1, 2, 3, 4] }.palMem.get? 1023 = some 4)
    ∧ (PixelReady .pal8 (palState 16 1 1 [0x1F, 0x00] [0]) ∧ (palState 16 1 1 [0x1F, 0x00] [0]).palMem.get? 1 = some 0x00)
    ∧ PixelReady .pal8 (palState 15 1 1 [0x1F, 0x00] [0]) ∧ (palState 15 1 1 [0x1F, 0x00] [0]).cfg.palBpp = 15 := by
  refine ⟨⟨ready_pal8, by decide⟩, ⟨⟨?_, ?_, ?_, ?_⟩, ?_⟩, ⟨⟨?_, ?_, ?_, ?_⟩, ?_⟩, ⟨?_, ?_, ?_, ?_⟩, ?_⟩ <;> decide
theorem witness_Pe24Completes : PixelReady .pal8 (palPix 2) ∧ (palPix 2).cfg.palBpp = 24 := ⟨ready_pal8, by decide⟩
theorem witness_Pe32Completes : PixelReady .pal8 (palState 32 3 1 [] [2]) ∧ (palState 32 3 1 [] [2]).cfg.palBpp = 32 := by
  refine ⟨⟨?_, ?_, ?_, ?_⟩, ?_⟩ <;> decide
theorem witness_Pe16Completes : (PixelReady .pal8 (palState 16 3 1 [] [2]) ∧ (palState 16 3 1 [] [2]).cfg.palBpp = 16)
    ∧ PixelReady .pal8 (palState 15 3 1 [] [2]) ∧ (palState 15 3 1 [] [2]).cfg.palBpp = 15 := by
  refine ⟨⟨⟨?_, ?_, ?_, ?_⟩, ?_⟩, ⟨?_, ?_, ?_, ?_⟩, ?_⟩ <;> decide

/-- A paletted image in raw mode. -/
def rawPal (i : Byte) : State := { palPix i with cfg := { (palPix i).cfg with ctrl := 0 }, pktCnt := 0 }

theorem witness_RawpxEmitsItsPixel :
    (rawPix.cfg.rle = false ∧ rawPix.seq = .pix ∧ rawPix.cfg.format = some (Pixel.mono8 0xC8).fmt ∧ rawPix.op.toNat < rawPix.par.outCap
      ∧ rawPix.ip + (Pixel.mono8 0xC8).fmt.bytes ≤ rawPix.cfg.inLen
      ∧ rawPix.cfg.inLen < { rawPix with ip := 4 }.ip + (Pixel.mono8 0xC8).fmt.bytes)
    ∧ ((rawPal 3).cfg.rle = false ∧ (rawPal 3).cfg.format = some (Pixel.pal8 3).fmt ∧ (rawPal 3).ip + 1 ≤ (rawPal 3).cfg.inLen
      ∧ expand (.pal8 3) (rawPal 3) = .badIndex)
    ∧ ∀ i, Pixel.pal8 2 = .pal8 i → i.toNat < (rawPal 2).cfg.palCount.toNat ∧ (rawPal 2).cfg.palFormat ≠ none := by
  refine ⟨by decide, by decide, ?_⟩
  rintro i ⟨⟩
  decide
theorem witness_HasAlphaOnlyGatesAlpha : (Pixel.mono16 1 2).fmt ≠ .pal8 ∧ (Pixel.true24 1 2 3).fmt = .true24
    ∧ (PalEntry.pe16 1 2 3 0).fmt = .pe16 := by decide
theorem witness_RepStepEmitsTheHeldPixel : (withCap (runRep 2 2) 1).seq = .rep
    ∧ (withCap (runRep 2 2) 1).op.toNat < (withCap (runRep 2 2) 1).par.outCap := by decide
theorem witness_BlockFollowsTheTransitionTable : Inv (runHdr 2) ∧ (∃ t, blockStep (runHdr 2) = .next t ∧ t.seq = .pix)
    ∧ Inv latchPix ∧ (∃ t, blockStep latchPix = .next t ∧ t.seq = .rep)
    ∧ Inv rawPix ∧ (∃ t, blockStep rawPix = .next t ∧ t.seq = .pix) ∧ rawPix.ip + rawPix.cfg.bytes ≤ rawPix.cfg.inLen
    ∧ ¬ rawPix.cfg.imgType = 1#2
    ∧ Inv (runRep 2 2) ∧ (∃ t, blockStep (runRep 2 2) = .next t ∧ t.seq = .rep)
    ∧ Inv shortPix ∧ shortPix.cfg.inLen < shortPix.ip + shortPix.cfg.bytes ∧ (∃ t, blockStep shortPix = .next t ∧ t.seq = .err)
    ∧ Inv (palPix 3) ∧ (palPix 3).ip + (palPix 3).cfg.bytes ≤ (palPix 3).cfg.inLen ∧ (palPix 3).cfg.imgType = 1#2
    ∧ ((palPix 3).fetch 1).1 = [3] ∧ (palPix 3).cfg.palCount.toNat ≤ (3 : Byte).toNat
    ∧ ∃ t, blockStep (palPix 3) = .next t ∧ t.seq = .err :=
  ⟨inv_runHdr, ⟨_, rfl, by decide⟩, inv_latchPix, ⟨_, rfl, by decide⟩, inv_rawPix, ⟨_, rfl, by decide⟩, by decide, by decide, inv_runRep,
    ⟨_, rfl, by decide⟩, inv_shortPix, by decide, ⟨_, rfl, by decide⟩, inv_palPix.2, by decide, by decide, by decide, by decide, _, rfl,
    by decide⟩
theorem witness_BlockStepTouchesOnlyItsPixel : (∃ t, blockStep (runRep 2 2) = .next t ∧ t.outMem ≠ (runRep 2 2).outMem)
    ∧ ∃ t, blockStep latchPix = .next t ∧ t.op = latchPix.op ∧ t ≠ latchPix := ⟨⟨_, rfl, by decide⟩, _, rfl, by decide, by decide⟩
/-- The last pixel of an image, with one pixel of the packet left. -/
theorem witness_OverrunFlagIsSetExactly : Inv (runRep 1 2) ∧ (runRep 1 2).seq.busy = true ∧ ∃ t, blockStep (runRep 1 2) = .next t ∧ t.ovr = true :=
  ⟨by constructor <;> decide, by decide, _, rfl, by decide⟩
theorem witness_BlockStepLowersTheMeasure : Inv latchPix ∧ latchPix.seq.busy = true := ⟨inv_latchPix, by decide⟩
theorem witness_RunEndsWithinTheBound : Inv (runHdr 2) ∧ (runHdr 2).seq.busy = true ∧ (runHdr 2).moves = []
    ∧ Inv rawPix ∧ rawPix.cfg.rle = false := ⟨inv_runHdr, by decide, by decide, inv_rawPix, by decide⟩
/-- A state in which START is accepted. -/
def startable : State := { State.reset with cfg := cfgOf 1 2 24 0 2 1 4, inMem := (runHdr 2).inMem }

theorem witness_StartedRunEnds : Inv startable ∧ startable.seq = .idle ∧ startable.cfg.legal startable.par = true ∧ startable.moves = []
    ∧ ∃ t, exec .start startable = .next t := ⟨by constructor <;> decide, by decide, by decide, by decide, _, rfl⟩
theorem witness_RunPacketRepeatsItsPixel : Inv (runHdr 2) ∧ (runHdr 2).moves = [] ∧ (runHdr 2).inStale = false ∧ (runHdr 2).seq = .hdr
    ∧ (runHdr 2).cfg.format = some .true24 ∧ (runHdr 2).inMem.get? (runHdr 2).ip = some 0x81 ∧ 128 ≤ (0x81 : Byte).toNat
    ∧ (runHdr 2).ip + 1 + 3 = (runHdr 2).cfg.inLen
    ∧ (∀ k, k < 3 → (runHdr 2).inMem.get? ((runHdr 2).ip + 1 + k) = ([0x10, 0x20, 0x30] : List Byte)[k]?)
    ∧ decodePixel .true24 [0x10, 0x20, 0x30] = .ok (.true24 0x10 0x20 0x30, [])
    ∧ expand (.true24 0x10 0x20 0x30) (runHdr 2) = .pixel ⟨0x30, 0x20, 0x10, 0xFF⟩ 0 := ⟨inv_runHdr, by decide⟩
theorem witness_LitPacketCopiesItsPixels : Inv litHdr ∧ litHdr.moves = [] ∧ litHdr.inStale = false ∧ litHdr.seq = .hdr
    ∧ litHdr.cfg.format = some .mono8 ∧ litHdr.inMem.get? litHdr.ip = some 0x01 ∧ (0x01 : Byte).toNat < 128
    ∧ 2 = min ((0x01 : Byte).toNat + 1) (litHdr.total.toNat - litHdr.op.toNat) ∧ litHdr.ip + 1 + 2 * 1 = litHdr.cfg.inLen
    ∧ ∀ k, k < 2 → (∀ j, j < 1 → litHdr.inMem.get? (litHdr.ip + 1 + k * 1 + j) = ([BitVec.ofNat 8 (8 + k)] : List Byte)[j]?)
      ∧ decodePixel .mono8 [BitVec.ofNat 8 (8 + k)] = .ok (.mono8 (BitVec.ofNat 8 (8 + k)), [])
      ∧ expand (.mono8 (BitVec.ofNat 8 (8 + k))) { litHdr with draws := 0 } = .pixel (expandMono8 (BitVec.ofNat 8 (8 + k))) 0 :=
  ⟨inv_litHdr, by decide⟩
/-- The entry of a paletted pixel has not been written: its three bytes are the free values 5, 6 and 7. -/
theorem witness_unwritten_entry : expand (.pal8 2) { rawPal 2 with palMem := [], draws := 5 }
    = .pixel ⟨Config.freeByte 7, Config.freeByte 6, Config.freeByte 5, 0xFF⟩ 8 := rfl
theorem witness_RawRunCopiesItsPixels : Inv rawPix ∧ rawPix.moves = [] ∧ rawPix.inStale = false ∧ rawPix.seq = .pix ∧ rawPix.cfg.rle = false
    ∧ rawPix.cfg.format = some .mono8 ∧ 2 = rawPix.total.toNat - rawPix.op.toNat ∧ rawPix.ip + 2 * 1 ≤ rawPix.cfg.inLen
    ∧ ∀ k, k < 2 → (∀ j, j < 1 → rawPix.inMem.get? (rawPix.ip + k * 1 + j) = ([if k = 0 then 0xC8 else 0x10] : List Byte)[j]?)
      ∧ decodePixel .mono8 [if k = 0 then 0xC8 else 0x10] = .ok (.mono8 (if k = 0 then 0xC8 else 0x10), [])
      ∧ expand (.mono8 (if k = 0 then 0xC8 else 0x10)) { rawPix with draws := 0 }
        = .pixel (expandMono8 (if k = 0 then 0xC8 else 0x10)) 0 :=
  ⟨inv_rawPix, by decide⟩
theorem witness_TruncationIsRaisedExactly : Inv shortPix ∧ shortPix.seq.busy = true
    ∧ (∃ t, blockStep shortPix = .next t ∧ t.err = .eTrunc) ∧ shortPix.cfg.inLen < shortPix.ip + shortPix.cfg.bytes
    ∧ Inv (runHdr 2) ∧ ∃ t, blockStep (runHdr 2) = .next t ∧ t.err ≠ .eTrunc :=
  ⟨inv_shortPix, by decide, ⟨_, rfl, by decide⟩, by decide, inv_runHdr, _, rfl, by decide⟩
theorem witness_PaletteIndexErrorIsRaisedExactly : Inv (palPix 3) ∧ (palPix 3).seq.busy = true
    ∧ (∃ t, blockStep (palPix 3) = .next t ∧ t.err = .ePalIdx) ∧ Inv (palPix 2) ∧ ∃ t, blockStep (palPix 2) = .next t ∧ t.err = .none :=
  ⟨inv_palPix.2, by decide, ⟨_, rfl, by decide⟩, inv_palPix.1, _, rfl, by decide⟩
theorem witness_OnlyStartRaisesConfigurationError : (∃ t, exec .start State.reset = .next t ∧ t.err = .eCfg) ∧ State.reset.err ≠ .eCfg
    ∧ (∃ t, exec (.run 2) (runHdr 2) = .next t) ∧ ∃ u, blockStep (runHdr 2) = .next u :=
  ⟨⟨_, rfl, by decide⟩, by decide, ⟨_, rfl⟩, _, rfl⟩
theorem witness_ErrorEntryWritesOnlyStatus : (∃ t, exec (.pxPal8 3) (palPix 3) = .next t ∧ t.seq = .err) ∧ (palPix 3).seq ≠ .err
    ∧ (∃ t, exec .start State.reset = .next t ∧ t.seq = .err)
    ∧ (∃ t, exec (.pxTrue24 1 2 3) shortPix = .next t ∧ t.seq = .err)
    ∧ shortPix.seq ≠ .err ∧ ∃ t, blockStep shortPix = .next t ∧ t.seq = .err :=
  ⟨⟨_, rfl, by decide⟩, by decide, ⟨_, rfl, by decide⟩, ⟨_, rfl, by decide⟩, by decide, _, rfl, by decide⟩
theorem witness_OnlyClearLeavesTheErrorState : errState.seq = .err ∧ (∃ t, exec .start errState = .next t) ∧ Instr.start ≠ .clear
    ∧ (∀ v, HostOp.writeReg 10 1 = .writeReg 10 v → v % 4 ≠ 2) ∧ ∃ t, hostOp (.writeReg 10 1) errState = .next t := by
  refine ⟨by decide, ⟨_, rfl⟩, by decide, ?_, _, rfl⟩
  rintro v ⟨⟩
  decide
theorem witness_ItemsThatAreNotTakenStop : rawPix.seq ≠ .hdr ∧ (rawPix.seq ≠ .pix ∨ rawPix.cfg.format ≠ some (Pixel.true24 1 2 3).fmt)
    ∧ (runHdr 2).cfg.rle = true
    ∧ (rawPix.seq ≠ .pix ∨ rawPix.cfg.format ≠ some .pal8 ∨ rawPix.cfg.palFormat ≠ some (PalEntry.pe24 1 2 3).fmt)
    ∧ ((palState 8 3 0 [] [2]).seq = .pix ∧ (palState 8 3 0 [] [2]).cfg.format = some .pal8
      ∧ (palState 8 3 0 [] [2]).ip + 1 ≤ (palState 8 3 0 [] [2]).cfg.inLen ∧ (2 : Byte).toNat < (palState 8 3 0 [] [2]).cfg.palCount.toNat
      ∧ (palState 8 3 0 [] [2]).cfg.palFormat = none)
    ∧ ({ rawPix with cfg := Cfg.reset }.seq = .pix ∧ { rawPix with cfg := Cfg.reset }.cfg.format = none)
    ∧ ((withCap (runRep 2 2) 0).seq = .rep ∧ (withCap (runRep 2 2) 0).par.outCap ≤ (withCap (runRep 2 2) 0).op.toNat)
    ∧ ((withCap rawPix 0).par.outCap ≤ (withCap rawPix 0).op.toNat ∧ (withCap rawPix 0).seq = .pix
      ∧ (withCap rawPix 0).cfg.format = some (Pixel.mono8 1).fmt ∧ (withCap rawPix 0).cfg.rle = false
      ∧ (withCap rawPix 0).ip + (Pixel.mono8 1).fmt.bytes ≤ (withCap rawPix 0).cfg.inLen
      ∧ expand (.mono8 1) (withCap rawPix 0) = .pixel ⟨1, 1, 1, 0xFF⟩ 0)
    ∧ (∀ t ∈ [withCap (palPix 2) 0], t.par.outCap ≤ t.op.toNat ∧ t.seq = .pix ∧ t.cfg.format = some .pal8
      ∧ t.cfg.palFormat = some (PalEntry.pe24 1 2 3).fmt ∧ t.ip + 1 ≤ t.cfg.inLen ∧ (t.cfg.rle && t.pktRun) = false)
    ∧ 2 ^ rawPix.par.inAW ≤ 2 ^ 32 ∧ 4 * doneState.par.outCap ≤ 4 * (2 ^ 32 - 1) ∧ doneState.seq.busy = false ∧ rawPix.seq.busy = true := by
  decide
theorem witness_LegalConfigurations : startable.seq = .idle ∧ startable.err = .none ∧ startable.cfg.legal startable.par = true
    ∧ State.reset.seq = .idle ∧ State.reset.err = .none ∧ State.reset.cfg.legal State.reset.par = false := by decide
theorem witness_StartBeginsARun : (startable.seq = .idle ∧ startable.cfg.legal startable.par = true)
    ∧ (State.reset.seq = .idle ∧ State.reset.cfg.legal State.reset.par = false) ∧ doneState.seq ≠ .idle := by decide
theorem witness_ClearReturnsToIdle : State.reset.seq = .idle ∧ doneState.seq = .done ∧ errState.seq = .err ∧ (runHdr 2).seq = .hdr
    ∧ rawPix.seq = .pix ∧ (runRep 2 2).seq = .rep := by decide
theorem witness_ConfigurationWriteKeepsTheLowBits :
    [1, 2, 8, 8, 1, 16, 16, 16, State.reset.par.inAW, State.reset.par.inAW][0]? = some 1
    ∧ [1, 2, 8, 8, 1, 16, 16, 16, State.reset.par.inAW, State.reset.par.inAW][9]? = some 32
    ∧ State.reset.seq.busy = false ∧ rawPix.seq.busy = true := by decide
theorem witness_HostWritesReachTheMemories : (after (hostOp (.writeIn 1 7) rawPix)).map State.inStale = some true ∧ State.reset.seq.busy = false ∧ rawPix.seq.busy = true ∧ 2 ^ 32 - 1 < 2 ^ rawPix.par.inAW
    ∧ doneState.seq.busy = false ∧ doneState.seq = .done ∧ 3 < 4 * doneState.total.toNat ∧ 3 < 4 * doneState.par.outCap := by decide
theorem witness_ResultIsReadableOnlyInDone : Inv doneState ∧ 3 < 4 * doneState.par.outCap ∧ doneState.seq = .done ∧ 3 < 4 * doneState.total.toNat
    ∧ 4 * doneState.total.toNat ≤ 4 ∧ Inv (runHdr 2) ∧ (runHdr 2).seq ≠ .done := ⟨inv_doneState, by decide, by decide, by decide, by decide, inv_runHdr, by decide⟩
theorem witness_PaletteReadGivesTheByteOrAFreeValue : rawPix.seq.busy = true ∧ State.reset.palMem.get? (1023 : BitVec 10).toNat = none
    ∧ { doneState with palMem := Mem.ofBytes 1023 [9] }.seq.busy = false
    ∧ { doneState with palMem := Mem.ofBytes 1023 [9] }.palMem.get? (1023 : BitVec 10).toNat = some 9 := by decide
theorem witness_HostCannotDisturbARun : rawPix.seq.busy = true ∧ (∃ t, hostOp (.writeReg 2 32) rawPix = .next t)
    ∧ (∀ a v, HostOp.writeReg 2 32 ≠ .writeIn a v) ∧ ∃ t, hostOp (.writeIn 1 7) rawPix = .next t :=
  ⟨by decide, ⟨_, rfl⟩, by simp, _, rfl⟩
theorem witness_HiddenRegistersCannotBeRead : (∃ t, hostOp (.readReg 11) (runRep 2 2) = .next t)
    ∧ ∃ t, hostOp (.readReg 11) { runRep 2 2 with pktCnt := 9, pktRun := false, px := ⟨1, 2, 3, 4⟩ } = .next t := ⟨⟨_, rfl⟩, _, rfl⟩
theorem witness_ValidatedHeaderIsLegal : HostDuties.validate header24 = .ok header24
    ∧ header24.width.toNat * header24.height.toNat ≤ Params.default.outCap := by decide
theorem witness_OrientationPassIsAnInvolution : ([⟨1, 2, 3, 4⟩, ⟨5, 6, 7, 8⟩] : List Rgba).length = 2 * 1 := by decide

/-- The file of a 2 by 1 image: header, one packet, and no footer. -/
def file24 : List Byte := [0, 0, 10, 0, 0, 0, 0, 0, 0] ++ [0, 0, 0, 2, 0, 1, 0, 24, 0x20] ++ [0x81, 0x10, 0x20, 0x30, 0, 0, 0, 0]

/-- The end of the run, seen by the host. -/
def doneRead : State := { doneState with rdata := 4 }

theorem witness_HostReturnsTheImageOrTheError : HostDuties.prepare [0] = .error .truncatedStream
    ∧ (Inv doneRead ∧ doneRead.seq = .done ∧ doneRead.rdata = doneRead.status.toNat ∧ 1 = plan1.header.width.toNat
      ∧ 1 = plan1.header.height.toNat ∧ doneRead.total.toNat = 1 * 1)
    ∧ (errState.seq = .err ∧ errState.err ≠ .none ∧ { errState with rdata := 0x35 }.rdata = { errState with rdata := 0x35 }.status.toNat)
    ∧ Inv (runHdr 2) ∧ HostDuties.prepare file24 = .ok ⟨header24, false, .nonPremultiplied, []⟩
    ∧ file24.length < 2 ^ (runHdr 2).par.inAW ∧ (runHdr 2).mu ≤ 6 ∧ 3 * (header24.width.toNat * header24.height.toNat) ≤ 6 :=
  ⟨by decide, ⟨by constructor <;> decide, by decide⟩, by decide, inv_runHdr, by decide, by decide, by decide, by decide⟩

end Sys2Proof.Tests
end

section
/-! SUPPORT. What a write of `CMD` and the two commands do, said once (10_state.md R23, 42_host_commands.md R124, R125). -/

namespace Sys2Proof.Machine

/-- A write of `CMD` acts on the low two bits of the value (log entry 9): START for 1, CLEAR for 2, nothing for 0 and 3. -/
theorem writeCmd_eq (v : Nat) (s : State) :
    writeCmd v s = if v % 4 = 1 then execStart s else if v % 4 = 2 then execClear s else .next s := by
  have hbits : ∀ k < 4, BitVec.ofNat 2 v = BitVec.ofNat 2 k ↔ v % 4 = k := fun k hk => by
    rw [← BitVec.toNat_inj, BitVec.toNat_ofNat, BitVec.toNat_ofNat]; omega
  simp only [writeCmd, decodeCommand, hbits 1 (by decide), hbits 2 (by decide)]
  by_cases h1 : v % 4 = 1
  · simp only [if_pos h1]; rfl
  · by_cases h2 : v % 4 = 2
    · simp only [if_neg h1, if_pos h2]; rfl
    · simp only [if_neg h1, if_neg h2]

/-- Everything START can do. -/
theorem execStart_next {s t : State} (h : execStart s = .next t) :
    (s.seq = .idle ∧ s.cfg.legal s.par = true ∧ t = s.started)
    ∨ (s.seq = .idle ∧ s.cfg.legal s.par = false ∧ t = s.raise .eCfg)
    ∨ (s.seq ≠ .idle ∧ t = s) := by
  unfold execStart at h
  split at h
  · rename_i hs
    split at h <;> rename_i hl <;> cases h
    · exact .inl ⟨hs, hl, rfl⟩
    · exact .inr (.inl ⟨hs, Bool.eq_false_iff.mpr hl, rfl⟩)
  · rename_i hs
    cases h
    exact .inr (.inr ⟨hs, rfl⟩)

/-- Everything CLEAR can do. -/
theorem execClear_next {s t : State} (h : execClear s = .next t) :
    (s.seq.busy = true ∧ t = s) ∨ (s.seq.busy = false ∧ t = s.cleared) := by
  unfold execClear at h
  split at h <;> rename_i hb <;> cases h
  · exact .inl ⟨hb, rfl⟩
  · exact .inr ⟨Bool.eq_false_iff.mpr hb, rfl⟩

end Sys2Proof.Machine
end

section
/-! SUPPORT. The invariants across a whole step: the block's, the host's and reset. -/

namespace Sys2Proof.Machine

/-- In IDLE with no error and no overrun the rest of the invariants is about the widths, the memories and `OP`. -/
theorem Inv.of_idle {s : State} (hs : s.seq = .idle) (he : s.err = .none) (ho : s.ovr = false)
    (hw : s.ip < 2 ^ s.par.inAW ∧ s.cfg.inStart < 2 ^ s.par.inAW ∧ s.cfg.inLen < 2 ^ s.par.inAW)
    (hc : s.inMem.wf ∧ s.palMem.wf ∧ s.outMem.wf)
    (hz : s.inMem.below (2 ^ s.par.inAW) ∧ s.palMem.below Config.palBytes ∧ s.outMem.below (4 * s.par.outCap))
    (hop : s.op.toNat ≤ s.total.toNat) : Inv s := by
  constructor <;> simp_all [SeqState.busy]

/-- Reset keeps `IN` alone (10_state.md R30, log entry 13), so nothing but `IN` has to be well formed before it. -/
theorem inv_resetEvent {s : State} (hin : s.inMem.wf) (hinB : s.inMem.below (2 ^ s.par.inAW)) : Inv s.resetEvent :=
  Inv.of_idle rfl rfl rfl ⟨Nat.two_pow_pos _, Nat.two_pow_pos _, Nat.two_pow_pos _⟩ ⟨hin, rfl, rfl⟩ ⟨hinB, rfl, rfl⟩
    (Nat.le_refl 0)

theorem Inv.resetEvent {s : State} (h : Inv s) : Inv s.resetEvent := inv_resetEvent h.canonical.1 h.sizes.1

/-- The state after reset is what the reset event makes of it. -/
theorem inv_reset : Inv State.reset := inv_resetEvent (s := State.reset) rfl rfl

theorem Inv.cleared {s : State} (h : Inv s) : Inv s.cleared :=
  Inv.of_idle (by simp) (by simp) (by simp) h.widths h.canonical h.sizes h.opLe

/-- `STATUS.OVR` is 0 outside DONE (10_state.md R31 item 7). -/
theorem Inv.ovr_false_of_ne_done {s : State} (h : Inv s) (hs : s.seq ≠ .done) : s.ovr = false :=
  Bool.eq_false_iff.mpr fun ho => hs (h.ovrDone ho)

theorem Inv.execStart {s t : State} (h : Inv s) (ht : execStart s = .next t) : Inv t := by
  rcases execStart_next ht with ⟨-, hl, rfl⟩ | ⟨hs, -, rfl⟩ | ⟨-, rfl⟩
  · exact h.started hl
  · exact h.raise .eCfg (by decide) (h.ovr_false_of_ne_done (by simp [hs]))
  · exact h

theorem Inv.execClear {s t : State} (h : Inv s) (ht : execClear s = .next t) : Inv t := by
  rcases execClear_next ht with ⟨-, rfl⟩ | ⟨-, rfl⟩
  · exact h
  · exact h.cleared

/-- A write of a register: a command, or nothing while BUSY, or a configuration register. -/
theorem Inv.writeReg {s t : State} (h : Inv s) (n v : Nat) (ht : writeReg n v s = .next t) : Inv t := by
  unfold Machine.writeReg at ht
  split at ht
  · rw [writeCmd_eq] at ht
    split at ht
    · exact h.execStart ht
    · split at ht
      · exact h.execClear ht
      · cases ht; exact h
  · split at ht <;> rename_i hb <;> cases ht
    · exact h
    · obtain ⟨-, hstart, hlen⟩ := h.widths
      obtain ⟨hstart', hlen'⟩ := cfg_write_widths s.cfg s.par.inAW n v hstart hlen
      exact h.of_cfg (Bool.eq_false_iff.mpr hb) _ hstart' hlen'

/-- A write of `PAL`: an address of 10 bits exists (10_state.md R27). -/
theorem Inv.writePal {s t : State} (h : Inv s) (a : BitVec 10) (v : Byte) (ht : writePal a v s = .next t) : Inv t := by
  unfold Machine.writePal at ht
  obtain ⟨hin, hpal, -⟩ := h.canonical
  obtain ⟨hinB, hpalB, -⟩ := h.sizes
  split at ht <;> cases ht
  · exact h
  · exact h.mems s.inMem _ ⟨hin, hinB⟩ ⟨Mem.wf_set _ _ v hpal, Mem.below_set _ _ _ v hpalB a.isLt⟩ s.inStale s.rdata s.draws

theorem Inv.writeIn {s t : State} (h : Inv s) (a : Nat) (v : Byte) (ht : writeIn a v s = .next t) : Inv t := by
  unfold Machine.writeIn at ht
  obtain ⟨hin, hpal, -⟩ := h.canonical
  obtain ⟨hinB, hpalB, -⟩ := h.sizes
  split at ht <;> cases ht
  rename_i ha
  exact h.mems _ s.palMem ⟨Mem.wf_set _ a v hin, Mem.below_set _ _ a v hinB ha⟩ ⟨hpal, hpalB⟩ _ s.rdata s.draws

/-- A read of `PAL`: the byte or a free value. -/
theorem Inv.readPal {s t : State} (h : Inv s) (a : BitVec 10) (ht : readPal a s = .next t) : Inv t := by
  unfold Machine.readPal at ht
  split at ht <;> cases ht
  · exact h.returnsFree
  · exact h.returnsByte _

/-- A read of `OUT`: the byte or a free value. -/
theorem Inv.readOut {s t : State} (h : Inv s) (a : Nat) (ht : readOut a s = .next t) : Inv t := by
  unfold Machine.readOut at ht
  split at ht
  · split at ht <;> cases ht
    · exact h.returnsByte _
    · exact h.returnsFree
  · cases ht

theorem Inv.writeOut {s t : State} (h : Inv s) (a : Nat) (v : Byte) (ht : writeOut a v s = .next t) : Inv t := by
  unfold Machine.writeOut at ht
  split at ht
  · cases ht
  · rename_i hb
    split at ht <;> cases ht
    rename_i ha
    exact h.out a v (Bool.eq_false_iff.mpr hb) ha

/-- Every operation of the host keeps the invariants. -/
theorem Inv.hostOp {s t : State} (h : Inv s) (op : HostOp) (ht : hostOp op s = .next t) : Inv t := by
  cases op with
  | readReg n => cases ht; exact h.returns _
  | writeReg n v => exact h.writeReg n v ht
  | writePal a v => exact h.writePal a v ht
  | readPal a => exact h.readPal a ht
  | writeIn a v => exact h.writeIn a v ht
  | readOut a => exact h.readOut a ht
  | writeOut a v => exact h.writeOut a v ht

/-- An emit in the PIX step, in raw mode or in a raw packet. -/
theorem Inv.emitted_pix {s : State} (h : Inv s) (hs : s.seq = .pix) (hp : s.present s.cfg.bytes = true) (px : Rgba) :
    Inv ((s.advance s.cfg.bytes).emitted px) :=
  (h.advance hs hp).emitted px (by simp [hs, SeqState.busy]) (fun hr => h.cntPix hs (by simpa using hr))
    (by simpa [State.present] using hp) (by simp [hs]) (by simp [hs])

/-- An emit in the REP step. -/
theorem Inv.emitted_rep {s : State} (h : Inv s) (hs : s.seq = .rep) (px : Rgba) : Inv (s.emitted px) := by
  obtain ⟨hlo, hhi, hrun⟩ := h.cntRep hs
  exact h.emitted px (by simp [hs, SeqState.busy]) (fun _ => ⟨hlo, hhi⟩) (h.ip_le_of_rep hs) (by simp [hs])
    (fun _ => ⟨h.rawStates (.inr hs), hrun⟩)

/-- Every step of the block keeps the invariants. -/
theorem Inv.blockStep {s t : State} (h : Inv s) (ht : blockStep s = .next t) : Inv t := by
  rcases blockStep_next ht with ⟨-, rfl⟩ | ⟨hs, -, rfl⟩ | ⟨hs, hp, d, r, c, hlo, hhi, rfl⟩ | ⟨hs, -, rfl⟩ | ⟨hs, -, d, rfl⟩
    | ⟨hs, hp, hr, hrun, d, px, rfl⟩ | ⟨hs, hp, -, -, d, px, rfl⟩ | ⟨hs, -, rfl⟩
  · exact h
  · exact h.raise .eTrunc (by decide) (h.ovr_false_of_ne_done (by simp [hs]))
  · exact (h.setDraws d).opened hs hp r c hlo hhi
  · exact h.raise .eTrunc (by decide) (h.ovr_false_of_ne_done (by simp [hs]))
  · exact (h.setDraws d).raise .ePalIdx (by decide) (h.ovr_false_of_ne_done (by simp [hs]))
  · exact (h.setDraws d).latched hs hp hr hrun px
  · exact (h.setDraws d).emitted_pix hs hp px
  · exact h.emitted_rep hs s.px

/-- Whoever moves. -/
theorem Inv.takeMove {s t : State} (h : Inv s) (m : Move) (ht : takeMove m s = .next t) : Inv t := by
  cases m with
  | block => exact h.blockStep ht
  | host op => exact h.hostOp op ht
  | reset => cases ht; exact h.resetEvent

theorem step_eq_of_moves_nil {s : State} (h : s.moves = []) : step s = blockStep s := by simp only [step, h]

theorem step_eq_of_moves_cons {s : State} {m : Move} {rest : List Move} (h : s.moves = m :: rest) :
    step s = takeMove m { s with moves := rest } := by simp only [step, h]

theorem Inv.step {s t : State} (h : Inv s) (ht : step s = .next t) : Inv t := by
  cases hm : s.moves with
  | nil => rw [step_eq_of_moves_nil hm] at ht; exact h.blockStep ht
  | cons m rest => rw [step_eq_of_moves_cons hm] at ht; exact (h.moves rest).takeMove m ht

/-- Settles O4: the step is one move, and each mover keeps the invariants. -/
theorem everyStepKeepsTheInvariants : Obligations.EveryStepKeepsTheInvariants := fun _ _ hi ht => hi.step ht

/-- Settles O3. -/
theorem resetMeetsTheInvariants : Obligations.ResetMeetsTheInvariants := inv_reset

/-- Settles O11, by who makes the move. -/
theorem stepTakesTheNextMove : Obligations.StepTakesTheNextMove := by
  intro s
  refine ⟨step_eq_of_moves_nil, fun m rest hm => ⟨?_, ?_, ?_⟩⟩
  · rintro rfl; exact step_eq_of_moves_cons hm
  · rintro rfl; exact step_eq_of_moves_cons hm
  · rintro op rfl; exact step_eq_of_moves_cons hm

end Sys2Proof.Machine
end

section
/-! SUPPORT. The frame of a step of the block, and the overrun flag. -/

namespace Sys2Proof.Machine

/-- Settles O31, by what the step was: it waits, raises an error, opens a packet, holds a pixel, or emits one. -/
theorem blockStepTouchesOnlyItsPixel : Obligations.BlockStepTouchesOnlyItsPixel := by
  intro s t ht
  have hne : s.op + 1#32 ≠ s.op := by bv_omega
  rcases blockStep_next ht with ⟨-, rfl⟩ | ⟨hs, -, rfl⟩ | ⟨hs, -, d, r, c, -, -, rfl⟩ | ⟨hs, -, rfl⟩ | ⟨hs, -, d, rfl⟩
    | ⟨hs, -, -, -, d, px, rfl⟩ | ⟨hs, -, -, -, d, px, rfl⟩ | ⟨hs, -, rfl⟩
  · simp
  · simp
  · simp [hs]
  · simp
  · simp
  · simp [hs]
  · simpa [hs, hne] using (emitted_spec px ((s.setDraws d).advance s.cfg.bytes)).others
  · simpa [hs, hne] using (emitted_spec s.px s).others

/-- An emit enters DONE exactly when it emits the last pixel (40_rle_packets.md R91). -/
theorem emitted_seq_eq_done_iff {s : State} (px : Rgba) (hs : s.seq ≠ .done) :
    (s.emitted px).seq = .done ↔ s.op + 1#32 = s.total := by
  simp only [State.emitted_fields, endState]
  by_cases hl : s.op + 1#32 = s.total
  · simp [hl]
  · cases s.cfg.rle <;> simp [hl, hs]
    split <;> simp [hs]

/-- An emit sets `STATUS.OVR` exactly when it emits the last pixel of the image and not the last of its packet. -/
theorem emitted_ovr_iff {s : State} (px : Rgba) (hs : s.seq ≠ .done) (ho : s.ovr = false)
    (hc : s.cfg.rle = true → 1 ≤ s.pktCnt.toNat) :
    (s.emitted px).ovr = true ↔ (s.emitted px).seq = .done ∧ s.cfg.rle = true ∧ 2 ≤ s.pktCnt.toNat := by
  rw [emitted_seq_eq_done_iff px hs]
  simp only [State.emitted_fields, endOverrun, ho]
  cases hr : s.cfg.rle
  · simp
  · have hcnt : s.nextCnt ≠ 0#8 ↔ 2 ≤ s.pktCnt.toNat := by
      have := hc hr
      rw [State.nextCnt, if_pos hr, Ne, pktCnt_eq_zero, pktCnt_sub_one this]
      omega
    simp [hcnt]

/-- Settles O32: a busy block has OVR clear, and only an emit can set it. -/
theorem overrunFlagIsSetExactly : Obligations.OverrunFlagIsSetExactly := by
  intro s t hi hb ht
  have ho : s.ovr = false := hi.ovr_false_of_busy hb
  rcases blockStep_next ht with ⟨hn, rfl⟩ | ⟨-, -, rfl⟩ | ⟨-, -, d, r, c, -, -, rfl⟩ | ⟨-, -, rfl⟩ | ⟨-, -, d, rfl⟩
    | ⟨-, -, -, -, d, px, rfl⟩ | ⟨hs, -, -, -, d, px, rfl⟩ | ⟨hs, -, rfl⟩
  · simp [hn] at hb
  · simp [ho]
  · simp [ho]
  · simp [ho]
  · simp [ho]
  · simp [ho]
  · exact emitted_ovr_iff px (by simp [hs]) (by simpa using ho) (fun hr => (hi.cntPix hs (by simpa using hr)).1)
  · exact emitted_ovr_iff s.px (by simp [hs]) ho (fun _ => (hi.cntRep hs).1)

end Sys2Proof.Machine
end

section
/-! SUPPORT. The legal configurations (10_state.md R22). -/

namespace Sys2Proof.Machine

/-- The five items of R22. -/
theorem Cfg.legal_iff (c : Cfg) (par : Params) : c.legal par = true ↔
    (c.imgType = 1 ∨ c.imgType = 2 ∨ c.imgType = 3)
    ∧ (c.imgType = 1 → c.bpp = 8 ∧ (c.palBpp = 15 ∨ c.palBpp = 16 ∨ c.palBpp = 24 ∨ c.palBpp = 32) ∧ c.palCount ≠ 0)
    ∧ (c.imgType = 2 → c.bpp = 16 ∨ c.bpp = 24 ∨ c.bpp = 32)
    ∧ (c.imgType = 3 → c.bpp = 8 ∨ c.bpp = 16)
    ∧ c.width.toNat * c.height.toNat ≤ par.outCap := by
  have hcount : 1 ≤ c.palCount.toNat ↔ c.palCount ≠ 0 := by
    rw [Ne, ← BitVec.toNat_inj]; exact Nat.one_le_iff_ne_zero
  simp only [Cfg.legal, Bool.and_eq_true, Bool.or_eq_true, Bool.not_eq_true', decide_eq_true_eq, decide_eq_false_iff_not,
    ← imp_iff_not_or, hcount, or_assoc, and_assoc]
  exact Iff.rfl

/-- Settles O45. -/
theorem legalConfigurations : Obligations.LegalConfigurations := by
  refine ⟨fun s hs he => ?_, Cfg.legal_iff⟩
  change ∃ t, execStart s = .next t ∧ _
  rw [execStart, if_pos hs]
  cases hl : s.cfg.legal s.par
  · exact ⟨s.raise .eCfg, rfl, by simp⟩
  · exact ⟨s.started, rfl, by simp⟩

end Sys2Proof.Machine
end

section
/-! SUPPORT. The host does not see `PKT_CNT`, `PKT_RUN` and `PX` (10_state.md R29). -/

namespace Sys2Proof.Machine

/-- The state with the hidden registers at a fixed value: two states differ only in them exactly when this makes them equal. -/
def State.hide (s : State) : State := { s with pktCnt := 0#8, pktRun := false, px := ⟨0, 0, 0, 0⟩ }

theorem State.hide_with (s : State) (cnt : BitVec 8) (r : Bool) (px : Rgba) :
    { s with pktCnt := cnt, pktRun := r, px := px }.hide = s.hide := rfl

theorem State.hide_rdata (s : State) : s.hide.rdata = s.rdata := rfl

/-- No register that the host can read is hidden. -/
theorem State.hide_readReg (s : State) (n : Nat) : s.hide.readReg n = s.readReg n := rfl

/-- START sets `PKT_CNT` and `PKT_RUN` to 0 whatever they were. -/
theorem State.hide_started (s : State) : s.hide.started = s.started.hide := rfl

theorem execStart_hide {s t : State} (h : execStart s = .next t) : execStart s.hide = .next t.hide := by
  rcases execStart_next h with ⟨hs, hl, rfl⟩ | ⟨hs, hl, rfl⟩ | ⟨hs, rfl⟩
  · exact (if_pos hs).trans (if_pos hl)
  · exact (if_pos hs).trans (if_neg (Bool.eq_false_iff.mp hl))
  · exact if_neg hs

theorem execClear_hide {s t : State} (h : execClear s = .next t) : execClear s.hide = .next t.hide := by
  rcases execClear_next h with ⟨hb, rfl⟩ | ⟨hb, rfl⟩
  · exact if_pos hb
  · exact if_neg (Bool.eq_false_iff.mp hb)

theorem State.hide_returnsByte (s : State) (b : Option Byte) : s.hide.returnsByte b = (s.returnsByte b).hide := by
  cases b <;> rfl

theorem writeReg_hide {s t : State} (n v : Nat) (h : writeReg n v s = .next t) : writeReg n v s.hide = .next t.hide := by
  unfold writeReg at h ⊢
  split at h <;> rename_i hn
  · rw [if_pos hn, writeCmd_eq]
    rw [writeCmd_eq] at h
    split at h <;> rename_i h1
    · rw [if_pos h1]; exact execStart_hide h
    · rw [if_neg h1]
      split at h <;> rename_i h2
      · rw [if_pos h2]; exact execClear_hide h
      · rw [if_neg h2]; cases h; rfl
  · rw [if_neg hn]
    split at h <;> rename_i hb <;> cases h
    · exact if_pos hb
    · exact if_neg hb

theorem writePal_hide {s t : State} (a : BitVec 10) (v : Byte) (h : writePal a v s = .next t) :
    writePal a v s.hide = .next t.hide := by
  unfold writePal at h
  split at h <;> rename_i hb <;> cases h
  · exact if_pos hb
  · exact if_neg hb

theorem readPal_hide {s t : State} (a : BitVec 10) (h : readPal a s = .next t) : readPal a s.hide = .next t.hide := by
  unfold readPal at h
  split at h <;> rename_i hb <;> cases h
  · exact if_pos hb
  · rw [← State.hide_returnsByte]; exact if_neg hb

theorem writeIn_hide {s t : State} (a : Nat) (v : Byte) (h : writeIn a v s = .next t) :
    writeIn a v s.hide = .next t.hide := by
  unfold writeIn at h
  split at h <;> rename_i ha <;> cases h
  exact if_pos ha

theorem readOut_hide {s t : State} (a : Nat) (h : readOut a s = .next t) : readOut a s.hide = .next t.hide := by
  unfold readOut at h
  split at h <;> rename_i ha
  · split at h <;> rename_i hd <;> cases h
    · rw [← State.hide_returnsByte]; exact (if_pos ha).trans (if_pos hd)
    · exact (if_pos ha).trans (if_neg hd)
  · cases h

theorem writeOut_hide {s t : State} (a : Nat) (v : Byte) (h : writeOut a v s = .next t) :
    writeOut a v s.hide = .next t.hide := by
  unfold writeOut at h
  split at h <;> rename_i hb
  · cases h
  · split at h <;> rename_i ha <;> cases h
    exact (if_neg hb).trans (if_pos ha)

/-- A host operation does the same with the hidden registers hidden. -/
theorem hostOp_hide {s t : State} (op : HostOp) (h : hostOp op s = .next t) : hostOp op s.hide = .next t.hide := by
  cases op with
  | readReg n => cases h; rfl
  | writeReg n v => exact writeReg_hide n v h
  | writePal a v => exact writePal_hide a v h
  | readPal a => exact readPal_hide a h
  | writeIn a v => exact writeIn_hide a v h
  | readOut a => exact readOut_hide a h
  | writeOut a v => exact writeOut_hide a v h

/-- Settles O56: with the hidden registers hidden the two states are one, so the two answers are one. -/
theorem hiddenRegistersCannotBeRead : Obligations.HiddenRegistersCannotBeRead := by
  intro s t t' cnt r px op h h'
  have hs := hostOp_hide op h
  have hs' := hostOp_hide op h'
  rw [State.hide_with, hs] at hs'
  have heq : t.hide = t'.hide := by injection hs'
  refine ⟨?_, fun n => ?_⟩
  · rw [← t.hide_rdata, heq, t'.hide_rdata]
  · rw [← t.hide_readReg, heq, t'.hide_readReg]

end Sys2Proof.Machine
end

section
/-! SUPPORT. The registers as the host reads and writes them (10_state.md R18, R19, R23, R24, R30). -/

namespace Sys2Proof.Machine

/-- Every register reads 0 after reset (R30). -/
theorem readReg_reset (n : Nat) : State.reset.readReg n = 0 := by
  unfold State.readReg
  split <;> rfl

/-- Settles O1. -/
theorem resetLeavesTheSpecValues : Obligations.ResetLeavesTheSpecValues :=
  ⟨readReg_reset, rfl, rfl, rfl, rfl, rfl, rfl, fun _ => rfl, fun _ => rfl, rfl⟩

/-- A write of index 10 is the command of the value. -/
theorem hostOp_writeCmd (v : Nat) (s : State) : hostOp (.writeReg 10 v) s = writeCmd v s := rfl

/-- Settles O14. -/
theorem commandRegisterPerformsItsValue : Obligations.CommandRegisterPerformsItsValue := by
  intro s
  simp only [hostOp_writeCmd, writeCmd_eq]
  exact ⟨rfl, rfl, rfl, rfl, rfl⟩

/-- `STATUS` as a number: its three fields at bits 0, 4 and 8 (R18). -/
theorem status_toNat (s : State) :
    s.status.toNat = s.seq.code.toNat + 16 * s.err.code.toNat + 256 * s.ovr.toNat := by
  have h1 := s.seq.code.isLt
  have h2 := s.err.code.isLt
  have h3 := s.ovr.toNat_le
  rw [State.status, BitVec.toNat_ofNat]
  omega

theorem status_state (s : State) : (s.status.extractLsb' 0 3).toNat = s.seq.code.toNat := by
  have h1 := s.seq.code.isLt
  rw [BitVec.extractLsb'_toNat, Nat.shiftRight_eq_div_pow, status_toNat]
  omega

theorem status_err (s : State) : (s.status.extractLsb' 4 3).toNat = s.err.code.toNat := by
  have h1 := s.seq.code.isLt
  have h2 := s.err.code.isLt
  rw [BitVec.extractLsb'_toNat, Nat.shiftRight_eq_div_pow, status_toNat]
  omega

/-- Bit `k` of `STATUS` is a digit of the sum of its fields. -/
theorem status_getLsbD (s : State) (k : Nat) : s.status.getLsbD k
    = decide ((s.seq.code.toNat + 16 * s.err.code.toNat + 256 * s.ovr.toNat) / 2 ^ k % 2 = 1) := by
  rw [BitVec.getLsbD, Nat.testBit_eq_decide_div_mod_eq, status_toNat]

theorem status_ovr (s : State) : s.status.getLsbD 8 = s.ovr := by
  have h1 := s.seq.code.isLt
  have h2 := s.err.code.isLt
  have hfields : (s.seq.code.toNat + 16 * s.err.code.toNat + 256 * s.ovr.toNat) / 2 ^ 8 % 2 = s.ovr.toNat := by
    have h3 := s.ovr.toNat_le
    omega
  rw [status_getLsbD, hfields]
  cases s.ovr <;> rfl

/-- Settles O48. -/
theorem statusShowsStateErrorAndOverrun : Obligations.StatusShowsStateErrorAndOverrun := by
  intro s
  have h1 := s.seq.code.isLt
  have h2 := s.err.code.isLt
  refine ⟨(status_state s).trans ?_, (status_err s).trans ?_, status_ovr s, ?_, ?_⟩
  · cases s.seq <;> rfl
  · cases s.err <;> rfl
  · rw [status_getLsbD, decide_eq_false_iff_not]; omega
  · rw [status_getLsbD, decide_eq_false_iff_not]; omega

/-- A write of a configuration register of width `w` leaves the low `w` bits of the value there (R19). -/
theorem readReg_write_self (s : State) (n v w : Nat)
    (hw : [1, 2, 8, 8, 1, 16, 16, 16, s.par.inAW, s.par.inAW][n]? = some w) :
    { s with cfg := s.cfg.write s.par.inAW n v }.readReg n = v % 2 ^ w := by
  have hn : n < 10 := (List.getElem?_eq_some_iff.mp hw).1
  interval_cases n <;> cases hw <;> simp [State.readReg, Cfg.write]

/-- A write of a register leaves every other one as it was. -/
theorem readReg_write_ne (s : State) (n v m : Nat) (hm : m ≠ n) :
    { s with cfg := s.cfg.write s.par.inAW n v }.readReg m = s.readReg m := by
  unfold Cfg.write
  split
  case h_11 => rfl
  all_goals
    unfold State.readReg
    split <;> simp_all [State.status]

/-- Settles O50. -/
theorem configurationWriteKeepsTheLowBits : Obligations.ConfigurationWriteKeepsTheLowBits := by
  intro s n v w hw
  have hn : n ≠ 10 := by have := (List.getElem?_eq_some_iff.mp hw).1; simp at this; omega
  refine ⟨fun hb => ⟨{ s with cfg := s.cfg.write s.par.inAW n v }, ?_, rfl, readReg_write_self s n v w hw,
    readReg_write_ne s n v⟩, fun hb => ?_⟩
  · exact (if_neg hn).trans (if_neg (Bool.eq_false_iff.mp hb))
  · exact (if_neg hn).trans (if_pos hb)

/-- An index from 11 up is no configuration register. -/
theorem Cfg.write_of_ge (c : Cfg) (aw n v : Nat) (hn : 11 ≤ n) : c.write aw n v = c := by
  unfold Cfg.write
  split
  case h_11 => rfl
  all_goals omega

/-- Settles O51. -/
theorem readOnlyRegistersIgnoreWrites : Obligations.ReadOnlyRegistersIgnoreWrites := by
  intro s n v
  refine ⟨fun hn => ?_, rfl, rfl, rfl⟩
  change writeReg n v s = .next s
  rw [writeReg, if_neg (by omega), Cfg.write_of_ge _ _ _ _ hn]
  exact ite_self _

/-- A register is found at its bus address. -/
theorem regIndexAt_regAddr (par : Params) (n : Nat) : regIndexAt par (regAddr par n) = some n := by
  simp [regIndexAt, regAddr]

/-- Settles O52. -/
theorem registerAddressesAreDistinct : Obligations.RegisterAddressesAreDistinct := by
  intro par n
  refine ⟨rfl, ?_, fun v => ?_⟩
  · rw [busRead, regIndexAt_regAddr]; rfl
  · rw [busWrite, regIndexAt_regAddr]; rfl

end Sys2Proof.Machine
end

section
/-! SUPPORT. Where an item or a host access stops by name (log entry 7). -/

namespace Sys2Proof.Machine

/-- A palette entry runs as the rest of the PIX step of its pixel. -/
theorem exec_entry_toInstr (e : PalEntry) (s : State) : exec e.toInstr s = entryStep e s := by cases e <;> rfl

/-- `RAWPX` is the PIX step in raw mode. -/
theorem exec_rawpx_of_raw {s : State} (p : Pixel) (h : s.cfg.rle = false) : exec (.rawpx p) s = pixStep p s :=
  if_neg (Bool.eq_false_iff.mp h)

theorem exec_rawpx_of_rle {s : State} (p : Pixel) (h : s.cfg.rle = true) : exec (.rawpx p) s = .refused .notEnabled :=
  if_pos h

theorem openPacket_refused {s : State} (r : Bool) (c : Nat) (h : s.seq ≠ .hdr) :
    openPacket r c s = .refused .notEnabled := if_neg h

theorem pixStep_refused {s : State} {p : Pixel} (h : s.seq ≠ .pix ∨ s.cfg.format ≠ some p.fmt) :
    pixStep p s = .refused .notEnabled := if_neg (by tauto)

theorem entryStep_refused {s : State} {e : PalEntry}
    (h : s.seq ≠ .pix ∨ s.cfg.format ≠ some .pal8 ∨ s.cfg.palFormat ≠ some e.fmt) :
    entryStep e s = .refused .notEnabled := if_neg (by tauto)

/-- In either mode a pixel that is not taken is refused. -/
theorem exec_rawpx_refused {s : State} {p : Pixel} (h : s.seq ≠ .pix ∨ s.cfg.format ≠ some p.fmt) :
    exec (.rawpx p) s = .refused .notEnabled := by
  cases hr : s.cfg.rle
  · rw [exec_rawpx_of_raw p hr, pixStep_refused h]
  · exact exec_rawpx_of_rle p hr

/-- The PIX step of a pixel that is taken and has all its bytes turns on what `expand` answers (R84). -/
theorem pixStep_taken {s : State} {p : Pixel} (hs : s.seq = .pix) (hf : s.cfg.format = some p.fmt)
    (hp : s.ip + p.fmt.bytes ≤ s.cfg.inLen) :
    (∀ px d, expand p s = .pixel px d → pixStep p s = deliver px (s.setDraws d))
    ∧ (expand p s = .noFormat → pixStep p s = .fault .noFormat) := by
  have hpres : s.present s.cfg.bytes = true := by rw [Cfg.bytes_of_format hf]; exact decide_eq_true hp
  rw [pixStep, if_pos ⟨hs, hf⟩, if_pos hpres]
  exact ⟨fun px d he => by rw [he], fun he => by rw [he]⟩

/-- The entry step of an entry that is taken delivers its colour. -/
theorem entryStep_taken {s : State} {e : PalEntry} (hs : s.seq = .pix) (hf : s.cfg.format = some .pal8)
    (he : s.cfg.palFormat = some e.fmt) (hp : s.ip + 1 ≤ s.cfg.inLen) :
    entryStep e s = deliver (expandEntry s.cfg.alpha e) s := by
  have hpres : s.present s.cfg.bytes = true := by rw [Cfg.bytes_of_format hf]; exact decide_eq_true hp
  rw [entryStep, if_pos ⟨hs, hf, he⟩, if_pos hpres]

/-- An index in range of a configuration that selects no entry format. -/
theorem expand_pal8_noFormat {s : State} {i : Byte} (hi : i.toNat < s.cfg.palCount.toNat) (hf : s.cfg.palFormat = none) :
    expand (.pal8 i) s = .noFormat := by
  rw [expand, expandPal8, if_neg (by omega), hf]

/-- An emit with no place in `OUT` (10_state.md R28). -/
theorem emit_fault {s : State} (px : Rgba) (h : s.par.outCap ≤ s.op.toNat) : emit px s = .fault .outAddress :=
  if_neg (by omega)

/-- A pixel that is not to be held is emitted, so it needs a place in `OUT`. -/
theorem deliver_fault {s : State} (px : Rgba) (h : s.par.outCap ≤ s.op.toNat) (hc : (s.cfg.rle && s.pktRun) = false) :
    deliver px s = .fault .outAddress :=
  (if_neg (Bool.eq_false_iff.mp hc)).trans (emit_fault px h)

/-- The PIX step of a pixel that is not to be held and has no place in `OUT`. -/
theorem pixStep_outAddress {s : State} {p : Pixel} {px : Rgba} {d : Nat} (h : s.par.outCap ≤ s.op.toNat) (hs : s.seq = .pix)
    (hf : s.cfg.format = some p.fmt) (hp : s.ip + p.fmt.bytes ≤ s.cfg.inLen) (he : expand p s = .pixel px d)
    (hc : (s.cfg.rle && s.pktRun) = false) : pixStep p s = .fault .outAddress :=
  ((pixStep_taken hs hf hp).1 px d he).trans (deliver_fault px h hc)

/-- Settles O44, clause by clause: the refusals, the missing formats, the missing place in `OUT`, and the host's accesses. -/
theorem itemsThatAreNotTakenStop : Obligations.ItemsThatAreNotTakenStop := by
  intro s
  refine ⟨fun c hs => ⟨openPacket_refused true c hs, openPacket_refused false c hs⟩,
    fun p h => ⟨(exec_toInstr p s).trans (pixStep_refused h), exec_rawpx_refused h⟩,
    fun p hr => exec_rawpx_of_rle p hr,
    fun e h => (exec_entry_toInstr e s).trans (entryStep_refused h), ?_, ?_, fun hcap => ⟨?_, ?_, ?_⟩,
    fun a v => ⟨?_, ?_, ?_, ?_⟩⟩
  · intro i hs hf hp hi hn
    have hstep : pixStep (.pal8 i) s = .fault .noFormat :=
      (pixStep_taken (p := .pal8 i) hs hf hp).2 (expand_pal8_noFormat hi hn)
    exact ⟨hstep, fun hr => (exec_rawpx_of_raw _ hr).trans hstep⟩
  · intro hs hf
    simp only [blockStep, hs, pixItem, hf]
  · intro hs
    simp only [blockStep, hs, emit_fault _ hcap]
  · intro p px d hs hf hp he
    exact ⟨fun hc => (exec_toInstr p s).trans (pixStep_outAddress hcap hs hf hp he hc),
      fun hr => (exec_rawpx_of_raw p hr).trans (pixStep_outAddress hcap hs hf hp he (by simp [hr]))⟩
  · intro e hs hf he hp hc
    rw [exec_entry_toInstr, entryStep_taken hs hf he hp, deliver_fault _ hcap hc]
  · exact fun ha => if_neg (by omega)
  · exact fun ha => if_neg (by omega)
  · exact fun ha hb => (if_neg (Bool.eq_false_iff.mp hb)).trans (if_neg (by omega))
  · exact fun hb => if_pos hb

end Sys2Proof.Machine
end

section
/-! SUPPORT. What a fetch of the block sees in `IN` (20_memory.md R40, R54). -/

namespace Sys2Proof.Machine

/-- Settles O13 by the law of known bytes: in an undisturbed run `inByte` is `IN` itself, and a read of known bytes gives them in
address order and draws no free value. -/
theorem fetchReadsInInAddressOrder : Obligations.FetchReadsInInAddressOrder :=
  fun s bs hstale hbytes => fetch_known s bs hstale hbytes

end Sys2Proof.Machine
end

section
/-! SUPPORT. The decoder by kind of item, and that it and the encoder undo each other (30_encoding.md R61, R63, R65, R67). -/

namespace Sys2Proof

/-! ## What an answer of the decoder says, kind by kind -/

theorem decode_header_eq_ok {bs : List Byte} {i : Instr} {rest : List Byte} :
    decode .header bs = .ok (i, rest) ↔ ∃ h, bs = h :: rest ∧ i = decodeHeader h := by
  cases bs <;> simp [decode, and_comm, eq_comm]

theorem decode_rawPixel_eq_ok {f : PixFmt} {bs : List Byte} {i : Instr} {rest : List Byte} :
    decode (.rawPixel f) bs = .ok (i, rest) ↔ ∃ p, decodePixel f bs = .ok (p, rest) ∧ i = .rawpx p := by
  simp only [decode]
  cases hp : decodePixel f bs <;> simp [Prod.ext_iff, and_comm, eq_comm]

theorem decode_pixel_eq_ok {f : PixFmt} {bs : List Byte} {i : Instr} {rest : List Byte} :
    decode (.pixel f) bs = .ok (i, rest) ↔ ∃ p, decodePixel f bs = .ok (p, rest) ∧ i = p.toInstr := by
  simp only [decode]
  cases hp : decodePixel f bs <;> simp [Prod.ext_iff, and_comm, eq_comm]

theorem decode_palEntry_eq_ok {f : PalFmt} {bs : List Byte} {i : Instr} {rest : List Byte} :
    decode (.palEntry f) bs = .ok (i, rest) ↔ ∃ e, decodeEntry f bs = .ok (e, rest) ∧ i = e.toInstr := by
  simp only [decode]
  cases hp : decodeEntry f bs <;> simp [Prod.ext_iff, and_comm, eq_comm]

/-- A write of `CMD` decodes by its low two bits (10_state.md R23, log entry 9). -/
theorem decode_command_cons (c : Byte) (rest : List Byte) :
    decode .command (c :: rest) = if c.toNat % 4 = 1 then .ok (.start, rest)
      else if c.toNat % 4 = 2 then .ok (.clear, rest) else .error .noCommand := by
  have hbits : ∀ k < 4, c.extractLsb' 0 2 = BitVec.ofNat 2 k ↔ c.toNat % 4 = k := fun k hk => by
    rw [← BitVec.toNat_inj, BitVec.extractLsb'_toNat, BitVec.toNat_ofNat, Nat.shiftRight_zero]; omega
  simp only [decode, decodeCommand, hbits 1 (by decide), hbits 2 (by decide)]
  by_cases h1 : c.toNat % 4 = 1
  · simp only [if_pos h1]
  · by_cases h2 : c.toNat % 4 = 2
    · simp only [if_neg h1, if_pos h2]
    · simp only [if_neg h1, if_neg h2]

/-! ## Pixels and palette entries as instructions -/

theorem encode_toInstr (p : Pixel) : encode p.toInstr = encodePixel p := by cases p <;> rfl

theorem kind_toInstr (p : Pixel) : p.toInstr.kind = .pixel p.fmt := by cases p <;> rfl

theorem wf_toInstr (p : Pixel) : p.toInstr.wf = true := by cases p <;> rfl

theorem encode_entry_toInstr (e : PalEntry) : encode e.toInstr = encodeEntry e := by cases e <;> rfl

theorem kind_entry_toInstr (e : PalEntry) : e.toInstr.kind = .palEntry e.fmt := by cases e <;> rfl

theorem wf_entry_toInstr (e : PalEntry) : e.toInstr.wf = true := by cases e <;> rfl

/-! ## Decoding what was encoded -/

/-- The 16-bit formats put their word together again from its two bytes; the others hold their bytes as they are. -/
theorem decodePixel_encodePixel (p : Pixel) (rest : List Byte) : decodePixel p.fmt (encodePixel p ++ rest) = .ok (p, rest) := by
  cases p with
  | true16 b g r a =>
    obtain ⟨hb, hg, hr, ha⟩ := fields_word555 b g r a
    simp only [Pixel.fmt, encodePixel, List.cons_append, List.nil_append, decodePixel, le16_bytes, hb, hg, hr, ha]
  | _ => rfl

theorem decodeEntry_encodeEntry (e : PalEntry) (rest : List Byte) : decodeEntry e.fmt (encodeEntry e ++ rest) = .ok (e, rest) := by
  cases e with
  | pe16 b g r x =>
    obtain ⟨hb, hg, hr, hx⟩ := fields_word555 b g r x
    simp only [PalEntry.fmt, encodeEntry, List.cons_append, List.nil_append, decodeEntry, le16_bytes, hb, hg, hr, hx]
  | _ => rfl

theorem decodeHeader_headerByte (isRun : Bool) {count : Nat} (h : countOk count) :
    decodeHeader (headerByte isRun count) = if isRun then .run count else .lit count := by
  simp only [countOk, Bool.and_eq_true, decide_eq_true_eq] at h
  obtain ⟨hrun, hcount⟩ := headerByte_fields isRun count h.1 h.2
  rw [decodeHeader, hrun, hcount]

theorem decode_encodePixel (p : Pixel) (rest : List Byte) :
    decode (.pixel p.fmt) (encodePixel p ++ rest) = .ok (p.toInstr, rest) :=
  decode_pixel_eq_ok.mpr ⟨p, decodePixel_encodePixel p rest, rfl⟩

theorem decode_encodeEntry (e : PalEntry) (rest : List Byte) :
    decode (.palEntry e.fmt) (encodeEntry e ++ rest) = .ok (e.toInstr, rest) :=
  decode_palEntry_eq_ok.mpr ⟨e, decodeEntry_encodeEntry e rest, rfl⟩

/-- Settles O6, instruction by instruction: a header by its count, a pixel or an entry by its format, a command by its value. -/
theorem decodeOfEncodeIsTheInstruction : Obligations.DecodeOfEncodeIsTheInstruction := by
  intro i rest hwf
  cases i with
  | run count => exact decode_header_eq_ok.mpr ⟨_, rfl, (decodeHeader_headerByte true hwf).symm⟩
  | lit count => exact decode_header_eq_ok.mpr ⟨_, rfl, (decodeHeader_headerByte false hwf).symm⟩
  | rawpx p => exact decode_rawPixel_eq_ok.mpr ⟨p, decodePixel_encodePixel p rest, rfl⟩
  | pxTrue32 b g r a => exact decode_encodePixel (.true32 b g r a) rest
  | pxTrue24 b g r => exact decode_encodePixel (.true24 b g r) rest
  | pxTrue16 b g r a => exact decode_encodePixel (.true16 b g r a) rest
  | pxMono16 y a => exact decode_encodePixel (.mono16 y a) rest
  | pxMono8 y => exact decode_encodePixel (.mono8 y) rest
  | pxPal8 x => exact decode_encodePixel (.pal8 x) rest
  | pe24 b g r => exact decode_encodeEntry (.pe24 b g r) rest
  | pe32 b g r a => exact decode_encodeEntry (.pe32 b g r a) rest
  | pe16 b g r x => exact decode_encodeEntry (.pe16 b g r x) rest
  | start => exact decode_command_cons 1 rest
  | clear => exact decode_command_cons 2 rest

/-! ## Encoding what was decoded -/

/-- The fields of a 16-bit word are the whole word (`word555_fields`); the other formats keep their bytes as fields. -/
theorem encodePixel_of_decodePixel {f : PixFmt} {bs : List Byte} {p : Pixel} {rest : List Byte}
    (h : decodePixel f bs = .ok (p, rest)) : encodePixel p ++ rest = bs ∧ p.fmt = f := by
  unfold decodePixel at h
  split at h <;> cases h
  case h_3 b0 b1 =>
    obtain ⟨hlo, hhi⟩ := bytes_le16 b0 b1
    refine ⟨?_, rfl⟩
    rw [encodePixel, word555_fields, hlo, hhi]
    rfl
  all_goals exact ⟨rfl, rfl⟩

theorem encodeEntry_of_decodeEntry {f : PalFmt} {bs : List Byte} {e : PalEntry} {rest : List Byte}
    (h : decodeEntry f bs = .ok (e, rest)) : encodeEntry e ++ rest = bs ∧ e.fmt = f := by
  unfold decodeEntry at h
  split at h <;> cases h
  case h_3 e0 e1 =>
    obtain ⟨hlo, hhi⟩ := bytes_le16 e0 e1
    refine ⟨?_, rfl⟩
    rw [encodeEntry, word555_fields, hlo, hhi]
    rfl
  all_goals exact ⟨rfl, rfl⟩

theorem encode_decodeHeader (h : Byte) : encode (decodeHeader h) = [h] := by
  have hback := headerByte_of_fields h
  unfold decodeHeader
  cases hr : headerIsRun h <;> simpa [encode, hr] using hback

theorem kind_decodeHeader (h : Byte) : (decodeHeader h).kind = .header := by
  unfold decodeHeader
  split <;> rfl

theorem wf_decodeHeader (h : Byte) : (decodeHeader h).wf = true := by
  have hcount : countOk (headerCount h) = true := by simpa [countOk] using headerCount_bounds h
  unfold decodeHeader
  split <;> exact hcount

/-- Settles O7, kind by kind. -/
theorem encodeOfDecodeIsTheBytes : Obligations.EncodeOfDecodeIsTheBytes := by
  intro k bs i rest hk hd
  cases k with
  | header =>
    obtain ⟨h, rfl, rfl⟩ := decode_header_eq_ok.mp hd
    exact ⟨by rw [encode_decodeHeader]; rfl, kind_decodeHeader h⟩
  | rawPixel f =>
    obtain ⟨p, hp, rfl⟩ := decode_rawPixel_eq_ok.mp hd
    obtain ⟨hbytes, rfl⟩ := encodePixel_of_decodePixel hp
    exact ⟨hbytes, rfl⟩
  | pixel f =>
    obtain ⟨p, hp, rfl⟩ := decode_pixel_eq_ok.mp hd
    obtain ⟨hbytes, rfl⟩ := encodePixel_of_decodePixel hp
    exact ⟨by rwa [encode_toInstr], kind_toInstr p⟩
  | palEntry f =>
    obtain ⟨e, he, rfl⟩ := decode_palEntry_eq_ok.mp hd
    obtain ⟨hbytes, rfl⟩ := encodeEntry_of_decodeEntry he
    exact ⟨by rwa [encode_entry_toInstr], kind_entry_toInstr e⟩
  | command => exact absurd rfl hk

/-! ## Every long enough item decodes -/

/-- The first `BYTES` bytes are a pixel, whose encoding they are, so the pixel is read whatever follows. -/
theorem decodePixel_of_le {f : PixFmt} {bs : List Byte} (h : f.bytes ≤ bs.length) :
    ∃ p, decodePixel f bs = .ok (p, bs.drop f.bytes) := by
  obtain ⟨p, hp, -⟩ := decodePixel_total f (bs.take f.bytes) (by simpa using h)
  obtain ⟨hbytes, hfmt⟩ := encodePixel_of_decodePixel hp
  rw [List.append_nil] at hbytes
  refine ⟨p, ?_⟩
  have hread := decodePixel_encodePixel p (bs.drop f.bytes)
  rwa [hbytes, List.take_append_drop, hfmt] at hread

theorem decodeEntry_of_le {f : PalFmt} {bs : List Byte} (h : f.bytes ≤ bs.length) :
    ∃ e, decodeEntry f bs = .ok (e, bs.drop f.bytes) := by
  obtain ⟨e, he, -⟩ := decodeEntry_total f (bs.take f.bytes) (by simpa using h)
  obtain ⟨hbytes, hfmt⟩ := encodeEntry_of_decodeEntry he
  rw [List.append_nil] at hbytes
  refine ⟨e, ?_⟩
  have hread := decodeEntry_encodeEntry e (bs.drop f.bytes)
  rwa [hbytes, List.take_append_drop, hfmt] at hread

theorem wf_of_decode {k : ItemKind} {bs : List Byte} {i : Instr} {rest : List Byte} (h : decode k bs = .ok (i, rest)) :
    i.wf = true := by
  cases k with
  | header => obtain ⟨b, -, rfl⟩ := decode_header_eq_ok.mp h; exact wf_decodeHeader b
  | rawPixel f => obtain ⟨p, -, rfl⟩ := decode_rawPixel_eq_ok.mp h; rfl
  | pixel f => obtain ⟨p, -, rfl⟩ := decode_pixel_eq_ok.mp h; exact wf_toInstr p
  | palEntry f => obtain ⟨e, -, rfl⟩ := decode_palEntry_eq_ok.mp h; exact wf_entry_toInstr e
  | command =>
    cases bs with
    | nil => cases h
    | cons c bs =>
      rw [decode_command_cons] at h
      split at h
      · cases h; rfl
      · split at h <;> cases h
        rfl

theorem decode_of_le {k : ItemKind} {bs : List Byte} (hk : k ≠ .command) (h : k.bytes ≤ bs.length) :
    ∃ i rest, decode k bs = .ok (i, rest) := by
  cases k with
  | header =>
    obtain ⟨b, rest, rfl⟩ := List.exists_cons_of_length_pos h
    exact ⟨_, _, rfl⟩
  | rawPixel f =>
    obtain ⟨p, hp⟩ := decodePixel_of_le h
    exact ⟨_, _, decode_rawPixel_eq_ok.mpr ⟨p, hp, rfl⟩⟩
  | pixel f =>
    obtain ⟨p, hp⟩ := decodePixel_of_le h
    exact ⟨_, _, decode_pixel_eq_ok.mpr ⟨p, hp, rfl⟩⟩
  | palEntry f =>
    obtain ⟨e, he⟩ := decodeEntry_of_le h
    exact ⟨_, _, decode_palEntry_eq_ok.mpr ⟨e, he, rfl⟩⟩
  | command => exact absurd rfl hk

/-- Settles O8. -/
theorem decoderIsTotalAndWellFormed : Obligations.DecoderIsTotalAndWellFormed := by
  refine ⟨fun k bs i rest h => wf_of_decode h, fun k bs hk h => decode_of_le hk h, fun c rest h => ?_⟩
  rw [decode_command_cons]
  rcases h with h | h
  · exact ⟨.start, by rw [if_pos h]⟩
  · exact ⟨.clear, by rw [if_neg (by omega), if_pos h]⟩

/-! ## Header bytes and words as numbers -/

/-- Settles O9: bit 7 is set exactly from 128 on, and bits 6:0 are the byte modulo 128 (`header_fields`). -/
theorem headerByteSaysKindAndCount : Obligations.HeaderByteSaysKindAndCount := by
  intro h rest
  have hlt := h.isLt
  obtain ⟨hrun, hcount⟩ := Machine.header_fields h
  simp only [decode, decodeHeader, hrun, hcount]
  constructor
  · intro hge
    rw [if_pos (decide_eq_true hge), show h.toNat % 128 = h.toNat - 128 by omega]
  · intro hsmall
    rw [if_neg (by simpa using hsmall), Nat.mod_eq_of_lt hsmall]

/-- Settles O10 by running the decoder on the words. -/
theorem specWordsDecode : Obligations.SpecWordsDecode := by
  refine ⟨?_, ?_, ?_, ?_, ?_, ?_, ?_, ?_⟩ <;> decide

end Sys2Proof
end

section
/-! SUPPORT. The step of the block runs the decoded item (40_rle_packets.md R80, R81). -/

namespace Sys2Proof.Machine

/-- An item that exists and decodes is run, after the free values its fetch has used. -/
theorem fetchAndRun_of_decode {k : ItemKind} {n : Nat} {s : State} {i : Instr} {rest : List Byte}
    (hp : s.ip + n ≤ s.cfg.inLen) (hd : decode k (s.fetch n).1 = .ok (i, rest)) :
    fetchAndRun k n s = exec i (s.setDraws (s.fetch n).2) := by
  have hpres : s.present n = true := decide_eq_true hp
  rw [fetchAndRun, if_pos hpres, hd, runDecoded]

/-- The HDR step. -/
theorem blockStep_of_hdr {s : State} (hs : s.seq = .hdr) : blockStep s = fetchAndRun .header 1 s := by
  simp only [blockStep, hs]

/-- The PIX step. -/
theorem blockStep_of_pix {s : State} (hs : s.seq = .pix) : blockStep s = pixItem s := by
  simp only [blockStep, hs]

/-- The PIX step takes an item of the mode's kind in the format that the configuration selects. -/
theorem pixItem_of_format {s : State} {f : PixFmt} (hf : s.cfg.format = some f) :
    pixItem s = fetchAndRun (s.cfg.pixelKind f) f.bytes s := by
  simp only [pixItem, hf, Cfg.bytes_of_format hf]

/-- The REP step (R87). -/
theorem blockStep_of_rep {s : State} (hs : s.seq = .rep) : blockStep s = emit s.px s := by
  simp only [blockStep, hs]

/-- A block that is not BUSY waits for the host. -/
theorem blockStep_of_not_busy {s : State} (hs : s.seq.busy = false) : blockStep s = .next s := by
  unfold blockStep
  cases h : s.seq <;> simp [h, SeqState.busy] at hs ⊢

/-- Settles O12: a header in HDR, a pixel of the mode's kind in PIX, and no item outside BUSY. -/
theorem blockStepRunsTheDecodedItem : Obligations.BlockStepRunsTheDecodedItem := by
  intro s i rest
  refine ⟨fun hs hp hd => ?_, fun f hs hf hr hp hd => ?_, fun f hs hf hr hp hd => ?_, fun hs => ?_⟩
  · exact (blockStep_of_hdr hs).trans (fetchAndRun_of_decode hp hd)
  · rw [blockStep_of_pix hs, pixItem_of_format hf, Cfg.pixelKind, if_pos hr]
    exact fetchAndRun_of_decode hp hd
  · rw [blockStep_of_pix hs, pixItem_of_format hf, Cfg.pixelKind, if_neg (Bool.eq_false_iff.mp hr)]
    exact fetchAndRun_of_decode hp hd
  · exact blockStep_of_not_busy (by rcases hs with hs | hs | hs <;> rw [hs] <;> rfl)

end Sys2Proof.Machine
end

section
/-! SUPPORT. From a state that meets the invariants every allowed move answers a next state (30_encoding.md R67,
40_rle_packets.md R81, 42_host_commands.md R120). -/

namespace Sys2Proof.Machine

/-! ## The block's moves -/

/-- The expander has an answer where the configuration selects an entry format for its paletted pixels
(41_pixel_expander.md R100, R106). -/
theorem expand_answers {p : Pixel} {s : State} (h : p.fmt = .pal8 → ∃ g, s.cfg.palFormat = some g) :
    (∃ px d, expand p s = .pixel px d) ∨ expand p s = .badIndex := by
  by_cases hp : p.fmt = .pal8
  · obtain ⟨g, hg⟩ := h hp
    obtain ⟨i, rfl⟩ : ∃ i, p = .pal8 i := by cases p <;> simp [Pixel.fmt] at hp ⊢
    rcases expandPal8_cases i s g hg with ⟨-, hbad⟩ | ⟨-, e, -, -, hpx⟩
    · exact .inr hbad
    · exact .inl ⟨_, _, hpx⟩
  · obtain ⟨px, hpx⟩ := expand_pixel p s hp
    exact .inl ⟨px, _, hpx⟩

/-- A pixel of the format a run's configuration selects: truncated, out of the palette's range, or delivered. -/
theorem Inv.pixStep_answers {s : State} (hi : Inv s) {p : Pixel} (hs : s.seq = .pix) (hf : s.cfg.format = some p.fmt) :
    ∃ t, pixStep p s = .next t := by
  have hbusy : s.seq.busy = true := by rw [hs]; rfl
  obtain ⟨f, hf', hpal⟩ := Cfg.legal_formats (hi.busyLegal hbusy).1
  obtain rfl : p.fmt = f := Option.some.inj (hf.symm.trans hf')
  rw [pixStep, if_pos ⟨hs, hf⟩]
  by_cases hp : s.present s.cfg.bytes = true
  · rw [if_pos hp]
    rcases expand_answers (s := s) (fun h => (hpal h).1) with ⟨px, d, hx⟩ | hx
    · obtain ⟨t, ht, -⟩ := deliver_spec px (s.setDraws d) (by simpa using hi.op_lt_outCap hbusy)
      exact ⟨t, by rw [hx]; exact ht⟩
    · exact ⟨_, by rw [hx]⟩
  · exact ⟨_, if_neg hp⟩

/-- The PIX step: every byte string of the right length is a pixel, so only the pixel's own step is left. -/
theorem Inv.pixItem_answers {s : State} (hi : Inv s) (hs : s.seq = .pix) : ∃ t, pixItem s = .next t := by
  obtain ⟨f, hf, -⟩ := Cfg.legal_formats (hi.busyLegal (by rw [hs]; rfl)).1
  rcases pixItem_eq hf with ⟨-, he⟩ | ⟨-, p, -, rfl, he⟩
  · exact ⟨_, he⟩
  · rw [he]
    exact (hi.setDraws _).pixStep_answers (by simp [hs]) (by simp [hf])

/-- The step of the block, by its sequencer state. -/
theorem Inv.blockStep_answers {s : State} (hi : Inv s) : ∃ t, Machine.blockStep s = .next t := by
  cases hs : s.seq with
  | idle => exact ⟨s, blockStep_of_not_busy (by rw [hs]; rfl)⟩
  | done => exact ⟨s, blockStep_of_not_busy (by rw [hs]; rfl)⟩
  | err => exact ⟨s, blockStep_of_not_busy (by rw [hs]; rfl)⟩
  | hdr => rcases hdrItem_eq s hs with ⟨-, he⟩ | ⟨-, b, -, he⟩ <;> exact ⟨_, he⟩
  | pix =>
    obtain ⟨t, ht⟩ := hi.pixItem_answers hs
    exact ⟨t, (blockStep_of_pix hs).trans ht⟩
  | rep =>
    have hcap : s.op.toNat < s.par.outCap := hi.op_lt_outCap (by rw [hs]; rfl)
    exact ⟨_, (blockStep_of_rep hs).trans (emit_next.mpr ⟨hcap, rfl⟩)⟩

/-! ## The host's moves -/

theorem execStart_answers (s : State) : ∃ t, execStart s = .next t := by
  unfold execStart
  split
  · split <;> exact ⟨_, rfl⟩
  · exact ⟨_, rfl⟩

theorem execClear_answers (s : State) : ∃ t, execClear s = .next t := by
  unfold execClear
  split <;> exact ⟨_, rfl⟩

theorem writeCmd_answers (v : Nat) (s : State) : ∃ t, writeCmd v s = .next t := by
  rw [writeCmd_eq]
  split
  · exact execStart_answers s
  · split
    · exact execClear_answers s
    · exact ⟨s, rfl⟩

theorem writeReg_answers (n v : Nat) (s : State) : ∃ t, writeReg n v s = .next t := by
  unfold writeReg
  split
  · exact writeCmd_answers v s
  · split <;> exact ⟨_, rfl⟩

/-- A host operation that is allowed has an answer, whatever the state. -/
theorem hostOp_answers {op : HostOp} {s : State} (h : op.allowed s = true) : ∃ t, hostOp op s = .next t := by
  cases op with
  | readReg n => exact ⟨_, rfl⟩
  | writeReg n v => exact writeReg_answers n v s
  | writePal a v => rw [hostOp, writePal]; split <;> exact ⟨_, rfl⟩
  | readPal a => rw [hostOp, readPal]; split <;> exact ⟨_, rfl⟩
  | writeIn a v => exact ⟨_, if_pos (of_decide_eq_true h)⟩
  | readOut a =>
    rw [hostOp, readOut, if_pos (of_decide_eq_true h)]
    split <;> exact ⟨_, rfl⟩
  | writeOut a v =>
    simp only [HostOp.allowed, Bool.and_eq_true, Bool.not_eq_true', decide_eq_true_eq] at h
    exact ⟨_, (if_neg (Bool.eq_false_iff.mp h.1)).trans (if_pos h.2)⟩

/-- Whether an operation is allowed does not depend on the moves that follow it. -/
theorem HostOp.allowed_moves (op : HostOp) (s : State) (l : List Move) : op.allowed { s with moves := l } = op.allowed s := by
  cases op <;> rfl

/-- Settles O5, by who moves. -/
theorem invariantStatesNeverStop : Obligations.InvariantStatesNeverStop := by
  intro s hi hallow
  cases hm : s.moves with
  | nil => rw [step_eq_of_moves_nil hm]; exact hi.blockStep_answers
  | cons m rest =>
    rw [step_eq_of_moves_cons hm]
    cases m with
    | block => exact (hi.moves rest).blockStep_answers
    | reset => exact ⟨_, rfl⟩
    | host op =>
      have hop : op.allowed s = true := by simpa only [State.nextMoveAllowed, hm] using hallow
      exact hostOp_answers ((op.allowed_moves s rest).trans hop)

end Sys2Proof.Machine
end

section
/-! SUPPORT. The HDR step, the packet headers and the REP step (40_rle_packets.md R83, R87). -/

namespace Sys2Proof.Machine

/-- The HDR step with no byte left. -/
theorem blockStep_hdr_truncated {s : State} (hs : s.seq = .hdr) (hp : s.cfg.inLen ≤ s.ip) :
    blockStep s = .next (s.raise .eTrunc) := by
  rcases hdrItem_eq s hs with ⟨-, he⟩ | ⟨hpres, -⟩
  · exact he
  · simp only [State.present, decide_eq_true_eq] at hpres
    omega

/-- The HDR step of a known header byte opens its packet. -/
theorem blockStep_hdr_known {s : State} {h : Byte} (hs : s.seq = .hdr) (hp : s.ip < s.cfg.inLen) (hst : s.inStale = false)
    (hh : s.inMem.get? s.ip = some h) :
    blockStep s = .next (s.opened (decide (128 ≤ h.toNat)) (h.toNat % 128 + 1)) := by
  have hfetch : s.fetch 1 = ([h], s.draws) := fetch_known s [h] hst (by simpa using hh)
  rcases hdrItem_eq s hs with ⟨habs, -⟩ | ⟨-, b, hb, he⟩
  · simp only [State.present, decide_eq_false_iff_not] at habs
    omega
  · obtain rfl : h = b := by simpa [hfetch] using hb
    rw [he, hfetch, (header_fields h).1, (header_fields h).2]
    rfl

/-- Settles O15: the byte is missing, or it is fetched as it is and opens its packet. -/
theorem hdrStepFetchesAHeader : Obligations.HdrStepFetchesAHeader :=
  fun _ _ hs => ⟨blockStep_hdr_truncated hs, fun hp hst hh => blockStep_hdr_known hs hp hst hh⟩

theorem openPacket_present {s : State} (r : Bool) (c : Nat) (hs : s.seq = .hdr) (hp : s.ip + 1 ≤ s.cfg.inLen) :
    openPacket r c s = .next (s.opened r c) := by
  rw [openPacket, if_pos hs, if_pos (show s.present 1 = true from decide_eq_true hp)]

theorem openPacket_truncated {s : State} (r : Bool) (c : Nat) (hs : s.seq = .hdr) (hp : s.cfg.inLen < s.ip + 1) :
    openPacket r c s = .next (s.raise .eTrunc) := by
  rw [openPacket, if_pos hs, if_neg (by simpa [State.present] using hp)]

/-- Settles O16: both headers are the one operation `openPacket`, and a count of at most 128 fits in `PKT_CNT`. -/
theorem packetHeadersComplete : Obligations.PacketHeadersComplete := by
  intro s c hs _ hhi
  have hcnt : (BitVec.ofNat 8 c).toNat = c := by simp; omega
  exact ⟨fun hp => ⟨⟨_, openPacket_present true c hs hp, hcnt, rfl⟩, ⟨_, openPacket_present false c hs hp, hcnt, rfl⟩⟩,
    fun hp => ⟨openPacket_truncated true c hs hp, openPacket_truncated false c hs hp⟩⟩

/-- The REP step (R87) emits the held pixel where it has a place in `OUT`. -/
theorem blockStep_rep_emits {s : State} (hs : s.seq = .rep) (hop : s.op.toNat < s.par.outCap) :
    ∃ t, blockStep s = .next t ∧ Emitted s.px s t :=
  ⟨_, (blockStep_of_rep hs).trans (emit_next.mpr ⟨hop, rfl⟩), emitted_spec s.px s⟩

/-- Settles O27. -/
theorem repStepEmitsTheHeldPixel : Obligations.RepStepEmitsTheHeldPixel := fun _ hs hop => blockStep_rep_emits hs hop

end Sys2Proof.Machine
end

section
/-! SUPPORT. What the expander answers, and the PIX step of a pixel in raw mode (40_rle_packets.md R84, R86). -/

namespace Sys2Proof.Machine

/-- `E_PALIDX` is exactly an index that is not below `PAL_COUNT` (41_pixel_expander.md R106). -/
theorem expand_eq_badIndex_iff {p : Pixel} {s : State} :
    expand p s = .badIndex ↔ ∃ i, p = .pal8 i ∧ s.cfg.palCount.toNat ≤ i.toNat := by
  cases p with
  | pal8 i =>
    simp only [expand, expandPal8, Pixel.pal8.injEq, exists_eq_left']
    split
    · simp [*]
    · simp only [*, iff_false]
      split
      · simp
      · split <;> simp
  | true32 | true24 | true16 | mono16 | mono8 => simp [expand]

/-- The truncation test comes first (R84). -/
theorem pixStep_truncated {s : State} {p : Pixel} (hs : s.seq = .pix) (hf : s.cfg.format = some p.fmt)
    (hp : s.cfg.inLen < s.ip + p.fmt.bytes) : pixStep p s = .next (s.raise .eTrunc) := by
  rw [pixStep, if_pos ⟨hs, hf⟩, if_neg (by simpa [State.present, Cfg.bytes_of_format hf] using hp)]

/-- An index out of range writes nothing but the error (R84). -/
theorem pixStep_badIndex {s : State} {p : Pixel} (hs : s.seq = .pix) (hf : s.cfg.format = some p.fmt)
    (hp : s.ip + p.fmt.bytes ≤ s.cfg.inLen) (he : expand p s = .badIndex) : pixStep p s = .next (s.raise .ePalIdx) := by
  rw [pixStep, if_pos ⟨hs, hf⟩, if_pos (by simpa [State.present, Cfg.bytes_of_format hf] using hp), he]

/-- Outside the pixel of a run packet a delivered pixel is emitted (R85, R86). -/
theorem Delivered.emitted {px : Rgba} {n : Nat} {s t : State} (h : Delivered px n s t) (hc : (s.cfg.rle && s.pktRun) = false) :
    Emitted px { s with ip := s.ip + n } t := by
  rwa [Delivered, if_neg (by simpa using hc)] at h

/-- The pixel of a run packet is held (R88). -/
theorem Delivered.held {px : Rgba} {n : Nat} {s t : State} (h : Delivered px n s t) (hr : s.cfg.rle = true)
    (hrun : s.pktRun = true) : t = (s.advance n).latched px := by
  rwa [Delivered, if_pos ⟨hr, hrun⟩] at h

/-- In raw mode an emit leaves `STATUS.OVR` as it is (R91). -/
theorem Emitted.ovr_of_raw {px : Rgba} {s t : State} (h : Emitted px s t) (hr : s.cfg.rle = false) : t.ovr = s.ovr := by
  by_cases hl : t.op = s.total
  · simpa [hr] using (h.last hl).2
  · exact (h.goesOn hl (.inl hr)).2

/-- What an emit leaves as it is (R82). -/
theorem Emitted.keeps {px : Rgba} {s t : State} (h : Emitted px s t) :
    t.cfg = s.cfg ∧ t.par = s.par ∧ t.moves = s.moves ∧ t.total = s.total ∧ t.inMem = s.inMem ∧ t.palMem = s.palMem
    ∧ t.inStale = s.inStale ∧ t.pktRun = s.pktRun ∧ t.px = s.px ∧ t.ip = s.ip ∧ t.draws = s.draws := by
  rw [h.frame]
  simp only [and_self]

/-- Settles O26, by what the PIX step finds: too few bytes, an index out of range, or a pixel, which raw mode always emits. -/
theorem rawpxEmitsItsPixel : Obligations.RawpxEmitsItsPixel := by
  intro s p hr hs hf hop
  have hraw : exec (.rawpx p) s = pixStep p s := exec_rawpx_of_raw p hr
  refine ⟨hraw.trans (exec_toInstr p s).symm, fun hp => hraw.trans (pixStep_truncated hs hf hp),
    fun hp he => hraw.trans (pixStep_badIndex hs hf hp he), fun hp hpal => ?_⟩
  obtain ⟨px, d, he⟩ : ∃ px d, expand p s = .pixel px d := by
    refine (expand_answers fun h8 => ?_).resolve_right fun hbad => ?_
    · obtain ⟨i, rfl⟩ : ∃ i, p = .pal8 i := by cases p <;> simp [Pixel.fmt] at h8 ⊢
      exact Option.ne_none_iff_exists'.mp (hpal i rfl).2
    · obtain ⟨i, rfl, hi⟩ := expand_eq_badIndex_iff.mp hbad
      exact absurd (hpal i rfl).1 (by omega)
  obtain ⟨t, ht, hd⟩ := pixStep_ready ⟨hs, hf, hp, hop⟩ he
  have hemit := hd.emitted (by simp [hr])
  obtain ⟨-, -, -, -, -, -, -, hrun, hpx, -, -⟩ := hemit.keeps
  exact ⟨px, d, t, he, hraw.trans ht, hemit, hemit.cntRaw hr, hrun, hpx, hemit.ovr_of_raw hr⟩

end Sys2Proof.Machine
end

section
/-! SUPPORT. The sequencer state after a step of the block (40_rle_packets.md R80, R91). -/

namespace Sys2Proof.Machine

/-- The sequencer state after an emit, with `OP` and `PKT_CNT` as numbers (R91). -/
theorem emitted_seq_eq {s : State} (px : Rgba) (hop : s.op.toNat < s.total.toNat)
    (hcnt : s.cfg.rle = true → 1 ≤ s.pktCnt.toNat) :
    (s.emitted px).seq = if s.op.toNat + 1 = s.total.toNat then .done
      else if s.cfg.rle = true ∧ s.pktCnt.toNat = 1 then .hdr else s.seq := by
  have hlast : s.op + 1#32 = s.total ↔ s.op.toNat + 1 = s.total.toNat := by rw [← BitVec.toNat_inj, op_add_one hop]
  have hend : (s.cfg.rle && s.nextCnt == 0#8) = true ↔ s.cfg.rle = true ∧ s.pktCnt.toNat = 1 := by
    rw [Bool.and_eq_true, and_congr_right_iff]
    intro hr
    have hlo := hcnt hr
    rw [beq_iff_eq, pktCnt_eq_zero, State.nextCnt, if_pos hr, pktCnt_sub_one hlo]
    omega
  simp only [State.emitted_fields, endState, hlast, hend]

/-- The format that a configuration selects is the paletted one exactly for `IMG_TYPE` 1 (30_encoding.md R63). -/
theorem Cfg.format_eq_pal8_iff {c : Cfg} {f : PixFmt} (h : c.format = some f) : f = .pal8 ↔ c.imgType = 1#2 := by
  constructor
  · rintro rfl
    unfold Cfg.format at h
    split at h
    · repeat' split at h
      all_goals cases h
    · split at h
      · repeat' split at h
        all_goals cases h
      · split at h
        · assumption
        · cases h
  · intro ht
    simp only [Cfg.format, ht, BitVec.reduceEq, if_false, if_true] at h
    split at h <;> cases h
    rfl

/-- The next pixel is paletted and its index byte is not below `PAL_COUNT` (60_exceptions.md R143). -/
def State.badIndexNext (s : State) : Prop :=
  s.cfg.imgType = 1#2 ∧ ∃ b, (s.fetch 1).1 = [b] ∧ s.cfg.palCount.toNat ≤ b.toNat

/-- The pixel that the next bytes decode to fails to expand exactly when its index byte is out of range. -/
theorem expand_fetched_badIndex_iff {s : State} {p : Pixel} (hf : s.cfg.format = some p.fmt)
    (hd : decodePixel p.fmt (s.fetch s.cfg.bytes).1 = .ok (p, [])) (d : Nat) :
    expand p (s.setDraws d) = .badIndex ↔ s.badIndexNext := by
  have henc : encodePixel p = (s.fetch s.cfg.bytes).1 := by
    simpa using (encodePixel_of_decodePixel hd).1
  have hpal : p.fmt = .pal8 ↔ s.cfg.imgType = 1#2 := Cfg.format_eq_pal8_iff hf
  rw [expand_eq_badIndex_iff, State.badIndexNext, ← hpal]
  constructor
  · rintro ⟨i, rfl, hi⟩
    rw [Cfg.bytes_of_format hf] at henc
    exact ⟨rfl, i, henc.symm, by simpa using hi⟩
  · rintro ⟨h8, b, hb, hbad⟩
    obtain ⟨i, rfl⟩ : ∃ i, p = .pal8 i := by cases p <;> simp [Pixel.fmt] at h8 ⊢
    rw [Cfg.bytes_of_format hf] at henc
    obtain rfl : i = b := by simpa [encodePixel] using henc.trans hb
    exact ⟨i, rfl, by simpa using hbad⟩

/-- What the PIX step of a run does once its bytes exist: the palette error, or the delivery of a pixel. -/
theorem Inv.blockStep_pix_present {s : State} (hi : Inv s) (hs : s.seq = .pix) (hp : s.ip + s.cfg.bytes ≤ s.cfg.inLen) :
    (s.badIndexNext ∧ Machine.blockStep s = .next ((s.setDraws (s.fetch s.cfg.bytes).2).raise .ePalIdx)) ∨
    (¬ s.badIndexNext ∧ ∃ px d, Machine.blockStep s = deliver px (s.setDraws d)) := by
  obtain ⟨f, hf, hpal⟩ := Cfg.legal_formats (hi.busyLegal (by rw [hs]; rfl)).1
  have hpres : s.present s.cfg.bytes = true := decide_eq_true hp
  rcases pixItem_eq hf with ⟨habs, -⟩ | ⟨-, p, hd, rfl, he⟩
  · rw [hpres] at habs; cases habs
  have hbad := expand_fetched_badIndex_iff hf hd (s.fetch s.cfg.bytes).2
  rw [blockStep_of_pix hs, he]
  rw [Cfg.bytes_of_format hf] at hp hbad ⊢
  rcases expand_answers (s := s.setDraws (s.fetch p.fmt.bytes).2) (fun h => by simpa using (hpal h).1)
    with ⟨px, d, hx⟩ | hx
  · exact .inr ⟨fun h => by simp [hbad.mpr h] at hx, px, d,
      (pixStep_taken (by simpa using hs) (by simpa using hf) (by simpa using hp)).1 px d hx⟩
  · exact .inl ⟨hbad.mp hx, pixStep_badIndex (by simpa using hs) (by simpa using hf) (by simpa using hp) hx⟩

/-- Where a delivered pixel takes the sequencer (R85, R86, R88). -/
theorem Inv.deliver_seq {s t : State} {px : Rgba} (hi : Inv s) (hs : s.seq = .pix) (ht : deliver px s = .next t) :
    t.seq = if s.cfg.rle = true ∧ s.pktRun = true then .rep
      else if s.op.toNat + 1 = s.total.toNat then .done
      else if s.cfg.rle = true ∧ s.pktCnt.toNat = 1 then .hdr else .pix := by
  have hop := hi.opBusy (by rw [hs]; rfl)
  rcases deliver_next ht with ⟨hr, hrun, rfl⟩ | ⟨hc, -, rfl⟩
  · rw [if_pos ⟨hr, hrun⟩]
    exact (State.latched_fields _ px).2.1
  · have hcnt : s.cfg.rle = true → 1 ≤ s.pktCnt.toNat := fun hr => (hi.cntPix hs hr).1
    rw [if_neg (by simpa using hc), emitted_seq_eq px (by simpa using hop) (by simpa using hcnt)]
    simp [hs]

/-- Settles O30, by the sequencer state and, in `PIX`, by whether the pixel is there and its index is in range. -/
theorem blockFollowsTheTransitionTable : Obligations.BlockFollowsTheTransitionTable := by
  intro s t hi ht
  refine ⟨fun hs => ?_, fun hs => ⟨fun hp => ?_, fun hp => ⟨fun hbad => ?_, fun hok => ?_⟩⟩, fun hs => ?_, fun hb => ?_⟩
  · rcases hdrItem_eq s hs with ⟨hp, he⟩ | ⟨hp, b, -, he⟩ <;> cases he.symm.trans ht <;>
      simp only [State.present, decide_eq_false_iff_not, decide_eq_true_eq] at hp
    · rw [if_pos (by omega)]; rfl
    · rw [if_neg (by omega)]; rfl
  · obtain ⟨f, hf, -⟩ := Cfg.legal_formats (hi.busyLegal (by rw [hs]; rfl)).1
    rw [blockStep_of_pix hs] at ht
    rcases pixItem_eq hf with ⟨-, he⟩ | ⟨hpres, -⟩
    · cases he.symm.trans ht; rfl
    · simp only [State.present, decide_eq_true_eq] at hpres
      omega
  · rcases hi.blockStep_pix_present hs hp with ⟨-, he⟩ | ⟨hok, -⟩
    · cases he.symm.trans ht; rfl
    · exact absurd hbad hok
  · rcases hi.blockStep_pix_present hs hp with ⟨hbad, -⟩ | ⟨-, px, d, he⟩
    · exact absurd hbad hok
    · simpa using (hi.setDraws d).deliver_seq (by simpa using hs) (he.symm.trans ht)
  · obtain ⟨hlo, -, -⟩ := hi.cntRep hs
    obtain ⟨-, rfl⟩ := emit_next.mp ((blockStep_of_rep hs).symm.trans ht)
    rw [emitted_seq_eq s.px (hi.opBusy (by rw [hs]; rfl)) (fun _ => hlo), hs]
    simp [hi.rawStates (.inr hs)]
  · cases (blockStep_of_not_busy hb).symm.trans ht; rfl

end Sys2Proof.Machine
end

section
/-! SUPPORT. The measure of 70_reset_and_hazards.md R181, and that a run left alone ends. -/

namespace Sys2Proof.Machine

theorem emitted_seq_ne_idle {s : State} (px : Rgba) (hs : s.seq ≠ .idle) : (s.emitted px).seq ≠ .idle := by
  simp only [State.emitted_fields, endState]
  split
  · simp
  · split
    · simp
    · exact hs

/-- How a step of a busy block moves on: it raises an error, it goes from the header to the pixel or from the pixel to its copies,
which only run-length mode does, or it emits a pixel. -/
theorem Inv.blockStep_progress {s t : State} (hi : Inv s) (hb : s.seq.busy = true) (ht : Machine.blockStep s = .next t) :
    t.seq = .err
    ∨ (s.cfg.rle = true ∧ t.seq.busy = true ∧ t.op = s.op ∧ s.seq.rank < t.seq.rank)
    ∨ (t.seq ≠ .idle ∧ t.op.toNat = s.op.toNat + 1) := by
  have hop := hi.opBusy hb
  rcases blockStep_next ht with ⟨hn, -⟩ | ⟨-, -, rfl⟩ | ⟨hs, -, d, r, c, -, -, rfl⟩ | ⟨-, -, rfl⟩ | ⟨-, -, d, rfl⟩
    | ⟨hs, -, hr, -, d, px, rfl⟩ | ⟨hs, -, -, -, d, px, rfl⟩ | ⟨hs, -, rfl⟩
  · rw [hn] at hb; cases hb
  · exact .inl rfl
  · exact .inr (.inl ⟨hi.rawStates (.inl hs), rfl, rfl, by simp [hs, SeqState.rank]⟩)
  · exact .inl rfl
  · exact .inl rfl
  · exact .inr (.inl ⟨hr, rfl, rfl, by simp [hs, SeqState.rank]⟩)
  · exact .inr (.inr ⟨emitted_seq_ne_idle px (by simp [hs]), op_add_one hop⟩)
  · exact .inr (.inr ⟨emitted_seq_ne_idle s.px (by simp [hs]), op_add_one hop⟩)

/-- The pixels that a busy block has still to emit. -/
def State.pixelsLeft (s : State) : Nat := if s.seq.busy then s.total.toNat - s.op.toNat else 0

theorem SeqState.rank_le (q : SeqState) : q.rank ≤ 2 := by cases q <;> decide

/-- A busy block's step lowers the measure of R181. -/
theorem Inv.blockStep_mu_lt {s t : State} (hi : Inv s) (hb : s.seq.busy = true) (ht : Machine.blockStep s = .next t) :
    t.mu < s.mu := by
  have hop := hi.opBusy hb
  have hrank := s.seq.rank_le
  obtain ⟨-, -, -, -, htot, -⟩ := blockStepTouchesOnlyItsPixel s t ht
  simp only [State.mu, hb, if_true, htot]
  rcases hi.blockStep_progress hb ht with he | ⟨-, hb', ho, hlt⟩ | ⟨-, ho⟩
  · simp only [he, SeqState.busy, Bool.false_eq_true, if_false]; omega
  · simp only [hb', if_true, ho]; omega
  · split <;> omega

/-- In raw mode every step of a busy block emits a pixel or ends the run. -/
theorem Inv.blockStep_pixelsLeft_lt {s t : State} (hi : Inv s) (hb : s.seq.busy = true) (hr : s.cfg.rle = false)
    (ht : Machine.blockStep s = .next t) : t.pixelsLeft < s.pixelsLeft := by
  have hop := hi.opBusy hb
  obtain ⟨-, -, -, -, htot, -⟩ := blockStepTouchesOnlyItsPixel s t ht
  simp only [State.pixelsLeft, hb, if_true, htot]
  rcases hi.blockStep_progress hb ht with he | ⟨hr', -⟩ | ⟨-, ho⟩
  · simp only [he, SeqState.busy, Bool.false_eq_true, if_false]; omega
  · rw [hr] at hr'; cases hr'
  · split <;> omega

/-- A run that nobody disturbs: the invariants hold, no move of the host or of reset is to come, and START has been done. -/
structure Undisturbed (s : State) : Prop where
  inv : Inv s
  moves : s.moves = []
  begun : s.seq ≠ .idle

/-- A busy undisturbed run steps to an undisturbed state of the same run. -/
theorem Undisturbed.step {s : State} (h : Undisturbed s) (hb : s.seq.busy = true) :
    ∃ t, Machine.step s = .next t ∧ blockStep s = .next t ∧ Undisturbed t ∧ t.cfg = s.cfg := by
  obtain ⟨t, ht⟩ := h.inv.blockStep_answers
  obtain ⟨hcfg, -, -, -, -, hmoves, -⟩ := blockStepTouchesOnlyItsPixel s t ht
  refine ⟨t, (step_eq_of_moves_nil h.moves).trans ht, ht, ⟨h.inv.blockStep ht, hmoves.trans h.moves, ?_⟩, hcfg⟩
  rcases h.inv.blockStep_progress hb ht with he | ⟨-, hb', -⟩ | ⟨hne, -⟩
  · simp [he]
  · intro hidle; rw [hidle] at hb'; cases hb'
  · exact hne

/-- A property that steps of busy states keep while they lower a measure: the run ends within the measure. -/
theorem run_ends_of_measure {P : State → Prop} {μ : State → Nat}
    (hstep : ∀ s, P s → s.seq.busy = true → ∃ t, step s = .next t ∧ P t ∧ μ t < μ s) (s : State) (hs : P s) :
    ∃ k t, Sys2Proof.core.run k s = .next t ∧ P t ∧ t.seq.busy = false ∧ k ≤ μ s := by
  induction hn : μ s using Nat.strong_induction_on generalizing s with
  | _ n ih =>
    cases hb : s.seq.busy with
    | false => exact ⟨0, s, rfl, hs, hb, Nat.zero_le n⟩
    | true =>
      obtain ⟨t, ht, hPt, hlt⟩ := hstep s hs hb
      obtain ⟨k, u, hrun, hPu, hend, hk⟩ := ih (μ t) (hn ▸ hlt) t hPt rfl
      exact ⟨k + 1, u, (core_run_next k s t ht).trans hrun, hPu, hend, by omega⟩

/-- A run that has begun and is not busy any more has ended. -/
theorem Undisturbed.ended {s : State} (h : Undisturbed s) (hb : s.seq.busy = false) : s.seq = .done ∨ s.seq = .err := by
  have hne := h.begun
  cases hs : s.seq <;> simp_all [SeqState.busy]

/-- An undisturbed run ends within the measure of R181. -/
theorem Undisturbed.run_ends {s : State} (h : Undisturbed s) :
    ∃ k t, Sys2Proof.core.run k s = .next t ∧ (t.seq = .done ∨ t.seq = .err) ∧ k ≤ s.mu := by
  obtain ⟨k, t, hrun, ht, hb, hk⟩ := run_ends_of_measure (P := Undisturbed) (μ := State.mu) (fun s hs hb => by
    obtain ⟨t, hstep, hblock, ht, -⟩ := hs.step hb
    exact ⟨t, hstep, ht, hs.inv.blockStep_mu_lt hb hblock⟩) s h
  exact ⟨k, t, hrun, ht.ended hb, hk⟩

/-- In raw mode it ends within as many steps as there are pixels left. -/
theorem Undisturbed.raw_run_ends {s : State} (h : Undisturbed s) (hr : s.cfg.rle = false) :
    ∃ k t, Sys2Proof.core.run k s = .next t ∧ (t.seq = .done ∨ t.seq = .err) ∧ k ≤ s.pixelsLeft := by
  obtain ⟨k, t, hrun, ⟨ht, -⟩, hb, hk⟩ := run_ends_of_measure (P := fun s => Undisturbed s ∧ s.cfg.rle = false)
    (μ := State.pixelsLeft) (fun s ⟨hs, hr⟩ hb => by
      obtain ⟨t, hstep, hblock, ht, hcfg⟩ := hs.step hb
      exact ⟨t, hstep, ⟨ht, hcfg ▸ hr⟩, hs.inv.blockStep_pixelsLeft_lt hb hr hblock⟩) s ⟨h, hr⟩
  exact ⟨k, t, hrun, ht.ended hb, hk⟩

/-- Settles O34, by mode: in raw mode the pixels left are at most the measure, since a busy block has one to emit. -/
theorem runEndsWithinTheBound : Obligations.RunEndsWithinTheBound := by
  intro s hi hb hm
  have hund : Undisturbed s := ⟨hi, hm, fun hidle => by rw [hidle] at hb; cases hb⟩
  cases hr : s.cfg.rle with
  | true =>
    obtain ⟨k, t, hrun, hend, hk⟩ := hund.run_ends
    exact ⟨k, t, hrun, hend, hk, fun habs => by cases habs⟩
  | false =>
    obtain ⟨k, t, hrun, hend, hk⟩ := hund.raw_run_ends hr
    have hop := hi.opBusy hb
    have hrank := s.seq.rank_le
    simp only [State.pixelsLeft, hb, if_true] at hk
    exact ⟨k, t, hrun, hend, by simp only [State.mu, hb, if_true]; omega, fun _ => hk⟩

end Sys2Proof.Machine
end

section
/-! SUPPORT. Several pixels emitted one after another, within one packet or in raw mode (40_rle_packets.md R82, R85 to R87, R91). -/

namespace Sys2Proof.Machine

/-! ## Runs, step by step -/

/-- A run takes one more step. -/
theorem run_snoc (M : Host.Core) {k : Nat} {s t u : M.State} (h : M.run k s = .next t) (ht : M.step t = .next u) :
    M.run (k + 1) s = .next u := by
  induction k generalizing s with
  | zero => cases h; exact run_next M 0 _ u ht
  | succ k ih =>
    cases hs : M.step s with
    | next s' => rw [run_next M k s s' hs] at h; rw [run_next M (k + 1) s s' hs]; exact ih h
    | fault r => simp [Host.Core.run, hs] at h
    | refused r => simp [Host.Core.run, hs] at h

/-! ## What `k` emits make of a state -/

/-- The pixel `px` stands at place `k` of `OUT` (20_memory.md R41). -/
def PixelAt (m : Mem) (k : Nat) (px : Rgba) : Prop :=
  m.get? (4 * k) = some px.r ∧ m.get? (4 * k + 1) = some px.g ∧ m.get? (4 * k + 2) = some px.b ∧ m.get? (4 * k + 3) = some px.a

theorem PixelAt.of_get?_eq {m m' : Mem} {k : Nat} {px : Rgba} (h : PixelAt m k px)
    (he : ∀ a, 4 * k ≤ a → a < 4 * k + 4 → m'.get? a = m.get? a) : PixelAt m' k px := by
  obtain ⟨hr, hg, hb, ha⟩ := h
  exact ⟨(he _ (by omega) (by omega)).trans hr, (he _ (by omega) (by omega)).trans hg, (he _ (by omega) (by omega)).trans hb,
    (he _ (by omega) (by omega)).trans ha⟩

/-- What emitting the pixels `px 0` to `px (k - 1)`, each of `n` source bytes, makes of `s`, when `d j` counts the free values that
the first `j` of them have used: R82 and R91 applied `k` times, within one packet or in raw mode. -/
structure Copied (n : Nat) (px : Nat → Rgba) (d : Nat → Nat) (k : Nat) (s t : State) : Prop where
  ip : t.ip = s.ip + k * n
  op : t.op.toNat = s.op.toNat + k
  draws : t.draws = d k
  cntRle : s.cfg.rle = true → t.pktCnt.toNat = s.pktCnt.toNat - k
  cntRaw : s.cfg.rle = false → t.pktCnt = s.pktCnt
  pixels : ∀ j, j < k → PixelAt t.outMem (s.op.toNat + j) (px j)
  others : ∀ a, a < 4 * s.op.toNat ∨ 4 * (s.op.toNat + k) ≤ a → t.outMem.get? a = s.outMem.get? a
  last : s.op.toNat + k = s.total.toNat → t.seq = .done ∧ t.ovr = (s.ovr || (s.cfg.rle && decide (k < s.pktCnt.toNat)))
  packetEnd : s.op.toNat + k ≠ s.total.toNat → s.cfg.rle = true → k = s.pktCnt.toNat → t.seq = .hdr ∧ t.ovr = s.ovr
  goesOn : s.op.toNat + k ≠ s.total.toNat → (s.cfg.rle = false ∨ k < s.pktCnt.toNat) → t.seq = s.seq ∧ t.ovr = s.ovr
  frame : t = { s with ip := t.ip, op := t.op, pktCnt := t.pktCnt, seq := t.seq, ovr := t.ovr, outMem := t.outMem, draws := t.draws }

/-- Pixels that may be emitted one after another: they have their places in the image and, in run-length mode, in the packet. -/
structure Room (m : Nat) (s : State) : Prop where
  image : s.op.toNat + m ≤ s.total.toNat
  packet : s.cfg.rle = false ∨ m ≤ s.pktCnt.toNat

/-- Nothing emitted yet. -/
theorem Copied.zero {n m : Nat} {px : Nat → Rgba} {d : Nat → Nat} {s : State} (hr : Room m s) (hm : 1 ≤ m) (hd : d 0 = s.draws) :
    Copied n px d 0 s s := by
  obtain ⟨himg, hpkt⟩ := hr
  refine ⟨by omega, rfl, hd.symm, fun _ => rfl, fun _ => rfl, fun j hj => absurd hj (by omega), fun _ _ => rfl,
    fun h => absurd h (by omega), fun _ hr h => ?_, fun _ _ => ⟨rfl, rfl⟩, rfl⟩
  rw [hr] at hpkt
  simp at hpkt
  omega

/-- What the emits leave as it is. -/
theorem Copied.keeps {n k : Nat} {px : Nat → Rgba} {d : Nat → Nat} {s t : State} (h : Copied n px d k s t) :
    t.cfg = s.cfg ∧ t.par = s.par ∧ t.moves = s.moves ∧ t.total = s.total ∧ t.inMem = s.inMem ∧ t.palMem = s.palMem
    ∧ t.inStale = s.inStale ∧ t.pktRun = s.pktRun ∧ t.px = s.px := by
  rw [h.frame]
  simp only [and_self]

/-- One more pixel. -/
theorem Copied.succ {n k m : Nat} {px : Nat → Rgba} {d : Nat → Nat} {s t u : State} (h : Copied n px d k s t) (hr : Room m s)
    (hk : k < m) (he : Emitted (px k) ((t.setDraws (d (k + 1))).advance n) u) : Copied n px d (k + 1) s u := by
  obtain ⟨himg, hpkt⟩ := hr
  obtain ⟨hcfg, -, -, htot, -⟩ := h.keeps
  obtain ⟨-, -, -, -, -, -, -, -, -, huip, hudraws⟩ := he.keeps
  obtain ⟨hbytes, hothers, huop, hucntRle, hucntRaw, hlast, hend, hgo, huframe⟩ := he
  simp only [State.advance_fields, State.setDraws_fields, hcfg, htot, h.op]
    at huip hudraws hbytes hothers huop hucntRle hucntRaw hlast hend hgo
  obtain ⟨htseq, htovr⟩ := h.goesOn (by omega) (hpkt.imp_right (by omega))
  rw [htseq, htovr] at hgo
  rw [htovr] at hlast hend
  have hop : u.op.toNat = s.op.toNat + (k + 1) := by
    rw [huop, op_add_one (by rw [htot, h.op]; omega), h.op]; rfl
  have hdone : u.op = s.total ↔ s.op.toNat + (k + 1) = s.total.toNat := by rw [← BitVec.toNat_inj, hop]
  have hcnt : s.cfg.rle = true → k < s.pktCnt.toNat ∧ u.pktCnt.toNat = s.pktCnt.toNat - (k + 1) := fun hr => by
    have hle : m ≤ s.pktCnt.toNat := hpkt.resolve_left (by simp [hr])
    have htcnt := h.cntRle hr
    rw [hucntRle hr, pktCnt_sub_one (by omega), htcnt]
    omega
  have hempty : s.cfg.rle = true → (u.pktCnt = 0#8 ↔ k + 1 = s.pktCnt.toNat) := fun hr => by
    have := hcnt hr
    rw [pktCnt_eq_zero]
    omega
  refine ⟨?_, hop, hudraws, fun hr => (hcnt hr).2, fun hr => (hucntRaw hr).trans (h.cntRaw hr), fun j hj => ?_, fun a ha => ?_,
    fun hl => ?_, fun hl hr hk => hend (hdone.not.mpr hl) hr ((hempty hr).mpr hk), fun hl hc => ?_, ?_⟩
  · rw [huip, h.ip, Nat.succ_mul, Nat.add_assoc]
  · rcases Nat.lt_succ_iff_lt_or_eq.mp hj with hlt | rfl
    · exact (h.pixels j hlt).of_get?_eq fun a _ ha => hothers a (.inl (by omega))
    · exact hbytes
  · rw [hothers a (by omega), h.others a (by omega)]
  · obtain ⟨hseq, hovr⟩ := hlast (hdone.mpr hl)
    refine ⟨hseq, hovr.trans ?_⟩
    cases hr : s.cfg.rle with
    | false => rfl
    | true =>
      have := hcnt hr
      have hmore : (u.pktCnt != 0#8) = decide (k + 1 < s.pktCnt.toNat) := by
        rw [Bool.eq_iff_iff, bne_iff_ne, Ne, hempty hr, decide_eq_true_iff]; omega
      rw [hmore]
  · refine hgo (hdone.not.mpr hl) ?_
    cases hr : s.cfg.rle with
    | false => exact .inl rfl
    | true =>
      have hlt := hc.resolve_left (by simp [hr])
      exact .inr ((hempty hr).not.mpr (by omega))
  · rw [huframe, h.frame]
    simp only [State.advance, State.setDraws]

/-- A sequence of `m` steps each of which emits the next pixel. -/
theorem run_copies {n m : Nat} {px : Nat → Rgba} {d : Nat → Nat} {s : State} (hr : Room m s) (hm : 1 ≤ m) (hd : d 0 = s.draws)
    (hmoves : s.moves = [])
    (hstep : ∀ k t, k < m → Copied n px d k s t → t.seq = s.seq →
      ∃ u, blockStep t = .next u ∧ Emitted (px k) ((t.setDraws (d (k + 1))).advance n) u) :
    ∃ t, Sys2Proof.core.run m s = .next t ∧ Copied n px d m s t := by
  suffices h : ∀ k, k ≤ m → ∃ t, Sys2Proof.core.run k s = .next t ∧ Copied n px d k s t from h m le_rfl
  intro k
  induction k with
  | zero => exact fun _ => ⟨s, rfl, .zero hr hm hd⟩
  | succ k ih =>
    intro hk
    obtain ⟨t, hrun, hcop⟩ := ih (by omega)
    have himg := hr.image
    have hpkt := hr.packet
    obtain ⟨-, -, htmoves, -⟩ := hcop.keeps
    obtain ⟨hseq, -⟩ := hcop.goesOn (by omega) (hpkt.imp_right (by omega))
    obtain ⟨u, hu, hemit⟩ := hstep k t hk hcop hseq
    exact ⟨u, run_snoc Sys2Proof.core hrun ((step_eq_of_moves_nil (htmoves.trans hmoves)).trans hu), hcop.succ hr hk hemit⟩

/-! ## The steps that emit -/

/-- The bytes of `IN` from `a` on are known and are the pixel `p` of format `f`. -/
def PixelIn (m : Mem) (a : Nat) (f : PixFmt) (p : Pixel) : Prop :=
  ∃ bs : List Byte, bs.length = f.bytes ∧ (∀ j, j < f.bytes → m.get? (a + j) = bs[j]?) ∧ decodePixel f bs = .ok (p, [])

/-- The PIX step of a known pixel that expands to `px` delivers it (R84). -/
theorem blockStep_pix_known {s : State} {f : PixFmt} {p : Pixel} {px : Rgba} {d : Nat} (hs : s.seq = .pix)
    (hf : s.cfg.format = some f) (hst : s.inStale = false) (hp : s.ip + f.bytes ≤ s.cfg.inLen) (hop : s.op.toNat < s.par.outCap)
    (hin : PixelIn s.inMem s.ip f p) (he : expand p s = .pixel px d) :
    ∃ t, blockStep s = .next t ∧ Delivered px f.bytes (s.setDraws d) t := by
  obtain ⟨bs, hlen, hbs, hd⟩ := hin
  have hfetch : s.fetch s.cfg.bytes = (bs, s.draws) := by
    rw [Cfg.bytes_of_format hf, ← hlen]
    exact fetch_known s bs hst (hlen ▸ hbs)
  rcases pixItem_eq hf with ⟨habs, -⟩ | ⟨-, q, hq, rfl, hstep⟩
  · simp only [State.present, Cfg.bytes_of_format hf, decide_eq_false_iff_not] at habs
    omega
  · obtain rfl : p = q := by simpa [hfetch, hd] using hq
    rw [blockStep_of_pix hs, hstep, hfetch]
    exact pixStep_ready ⟨hs, hf, hp, hop⟩ he

/-- The PIX steps of `m` known pixels, in raw mode or in a raw packet. -/
theorem run_copies_pixels {s : State} {f : PixFmt} {p : Nat → Pixel} {px : Nat → Rgba} {d : Nat → Nat} {m : Nat}
    (hs : s.seq = .pix) (hf : s.cfg.format = some f) (hst : s.inStale = false) (hmoves : s.moves = [])
    (hc : (s.cfg.rle && s.pktRun) = false) (hcap : s.total.toNat ≤ s.par.outCap) (hr : Room m s) (hm : 1 ≤ m)
    (hp : s.ip + m * f.bytes ≤ s.cfg.inLen) (hd : d 0 = s.draws)
    (hpx : ∀ k, k < m → PixelIn s.inMem (s.ip + k * f.bytes) f (p k)
      ∧ expand (p k) (s.setDraws (d k)) = .pixel (px k) (d (k + 1))) :
    ∃ t, Sys2Proof.core.run m s = .next t ∧ Copied f.bytes px d m s t := by
  refine run_copies hr hm hd hmoves fun k t hk hcop hseq => ?_
  obtain ⟨hcfg, hpar, -, -, hinMem, hpal, hstale, hrun, -⟩ := hcop.keeps
  obtain ⟨hin, hx⟩ := hpx k hk
  have hroom := hr.image
  have hlen : (k + 1) * f.bytes ≤ m * f.bytes := Nat.mul_le_mul_right _ hk
  rw [Nat.succ_mul] at hlen
  have hxt : expand (p k) t = .pixel (px k) (d (k + 1)) := by
    rw [← hx]
    exact expand_congr (p k) (by simp [hcfg]) (by simp [hpal]) (by simp [hcop.draws])
  obtain ⟨u, hu, hdel⟩ := blockStep_pix_known (hseq.trans hs) (hcfg ▸ hf) (hstale.trans hst)
    (by rw [hcfg, hcop.ip]; omega) (by rw [hpar, hcop.op]; omega) (by rw [hinMem, hcop.ip]; exact hin) hxt
  exact ⟨u, hu, hdel.emitted (by simpa [hcfg, hrun] using hc)⟩

/-- The REP steps of `m` copies of the held pixel (R87). -/
theorem run_copies_held {s : State} {m : Nat} (hs : s.seq = .rep) (hmoves : s.moves = []) (hcap : s.total.toNat ≤ s.par.outCap)
    (hr : Room m s) (hm : 1 ≤ m) :
    ∃ t, Sys2Proof.core.run m s = .next t ∧ Copied 0 (fun _ => s.px) (fun _ => s.draws) m s t := by
  refine run_copies hr hm rfl hmoves fun k t hk hcop hseq => ?_
  obtain ⟨-, hpar, -, -, -, -, -, -, hpx⟩ := hcop.keeps
  have hroom := hr.image
  obtain ⟨u, hu, hemit⟩ := blockStep_rep_emits (hseq.trans hs) (by rw [hpar, hcop.op]; omega)
  rw [hpx] at hemit
  refine ⟨u, hu, ?_⟩
  rw [← hcop.draws]
  exact hemit

end Sys2Proof.Machine
end

section
/-! SUPPORT. The packets and the raw run as a whole (40_rle_packets.md R86, R89, R90). -/

namespace Sys2Proof.Machine

/-- Every pixel of a run in progress has a place in `OUT` (10_state.md R22 item 5). -/
theorem Inv.total_le_outCap {s : State} (hi : Inv s) (hb : s.seq.busy = true) : s.total.toNat ≤ s.par.outCap := by
  obtain ⟨hlegal, htot⟩ := hi.busyLegal hb
  exact htot ▸ Cfg.legal_pixels hlegal

/-- How a packet of `PKT_CNT` pixels ends: with the image, whose overrun it then tells, or before it (R91). -/
theorem Copied.packet_status {n m : Nat} {px : Nat → Rgba} {d : Nat → Nat} {s t : State} (h : Copied n px d m s t)
    (hr : s.cfg.rle = true) (ho : s.ovr = false) (hop : s.op.toNat ≤ s.total.toNat)
    (hm : m = min s.pktCnt.toNat (s.total.toNat - s.op.toNat)) :
    (s.op.toNat + m = s.total.toNat → t.seq = .done ∧ (t.ovr = true ↔ m < s.pktCnt.toNat))
    ∧ (s.op.toNat + m ≠ s.total.toNat → t.seq = .hdr ∧ t.ovr = false) := by
  refine ⟨fun hl => ?_, fun hl => ?_⟩
  · obtain ⟨hseq, hovr⟩ := h.last hl
    exact ⟨hseq, by simp [hovr, ho, hr]⟩
  · obtain ⟨hseq, hovr⟩ := h.packetEnd hl hr (by omega)
    exact ⟨hseq, hovr.trans ho⟩

/-- Settles O36: the HDR step, the PIX step that holds the pixel, and the REP steps. -/
theorem runPacketRepeatsItsPixel : Obligations.RunPacketRepeatsItsPixel := by
  intro s h f bs p px d hi hmoves hst hs hf hh hrun hp hlen hbs hdec hx
  have hb : s.seq.busy = true := by rw [hs]; rfl
  have hrle := hi.rawStates (.inl hs)
  have hop := hi.opBusy hb
  have hcap := hi.total_le_outCap hb
  have hn : h.toNat % 128 + 1 = h.toNat - 127 := by have := h.isLt; omega
  have hopen := blockStep_hdr_known hs (by omega) hst hh
  rw [decide_eq_true hrun, hn] at hopen
  have hcnt : (s.opened true (h.toNat - 127)).pktCnt.toNat = h.toNat - 127 := by have := h.isLt; simp; omega
  obtain ⟨v, hv, hdel⟩ := blockStep_pix_known (s := s.opened true (h.toNat - 127)) (px := px) (d := d) (by simp) (by simpa using hf)
    (by simpa using hst) (by simpa using hp) (by simp; omega) ⟨bs, hlen, by simpa using hbs, hdec⟩
    ((expand_congr p (by simp) (by simp) (by simp)).trans hx)
  obtain rfl := hdel.held (by simpa using hrle) (by simp)
  obtain ⟨m, hm⟩ : ∃ m, m = min (h.toNat - 127) (s.total.toNat - s.op.toNat) := ⟨_, rfl⟩
  obtain ⟨t, hrep, hcop⟩ := run_copies_held (m := m)
    (s := (((s.opened true (h.toNat - 127)).setDraws d).advance f.bytes).latched px) (by simp) (by simpa using hmoves) (by simpa using hcap)
    ⟨by simp; omega, .inr (by simp; omega)⟩ (by omega)
  have hstatus := hcop.packet_status (by simpa using hrle) (by simpa using hi.ovr_false_of_busy hb) (by simp; omega)
    (by simp; omega)
  simp only [State.latched_fields, State.advance_fields, State.setDraws_fields, hcnt] at hstatus
  obtain ⟨hdone, hhdr⟩ := hstatus
  obtain ⟨-, -, -, -, -, -, -, hpktRun, hpx⟩ := hcop.keeps
  refine ⟨t, m, hm, ?_, by simpa using hcop.ip, hcop.op, hpktRun, hpx, hcop.draws,
    (hcop.cntRle hrle).trans (congrArg (· - m) hcnt), hdone, hhdr, hcop.pixels, hcop.others, ?_⟩
  · rw [show 2 + m = m + 1 + 1 by omega, core_run_next _ _ _ ((step_eq_of_moves_nil hmoves).trans hopen),
      core_run_next _ _ _ ((step_eq_of_moves_nil (by simpa using hmoves)).trans hv), hrep]
  · rw [hpktRun, hpx]
    exact hcop.frame

/-- Settles O37: the HDR step and the PIX steps of a raw packet. -/
theorem litPacketCopiesItsPixels : Obligations.LitPacketCopiesItsPixels := by
  intro s h f bs p px d m hi hmoves hst hs hf hh hlit hm hp hd hpx
  have hb : s.seq.busy = true := by rw [hs]; rfl
  have hrle := hi.rawStates (.inl hs)
  have hop := hi.opBusy hb
  have hcap := hi.total_le_outCap hb
  have hfirst : f.bytes ≤ m * f.bytes := Nat.le_mul_of_pos_left _ (by omega)
  have hopen := blockStep_hdr_known hs (by omega) hst hh
  rw [decide_eq_false (by omega), Nat.mod_eq_of_lt hlit] at hopen
  have hcnt : (s.opened false (h.toNat + 1)).pktCnt.toNat = h.toNat + 1 := by simp; omega
  obtain ⟨t, hrun, hcop⟩ := run_copies_pixels (s := s.opened false (h.toNat + 1)) (p := p) (px := px) (m := m) (by simp)
    (by simpa using hf) (by simpa using hst) (by simpa using hmoves) (by simp) (by simpa using hcap)
    ⟨by simp; omega, .inr (by omega)⟩ (by omega) (by simpa using hp) (by simpa using hd) (fun k hk => by
      obtain ⟨hlen, hbs, hdec, hx⟩ := hpx k hk
      exact ⟨⟨bs k, hlen, by simpa using hbs, hdec⟩, (expand_congr (p k) (by simp) (by simp) (by simp)).trans hx⟩)
  have hstatus := hcop.packet_status (by simpa using hrle) (by simpa using hi.ovr_false_of_busy hb) (by simp; omega)
    (by rw [hcnt]; simpa using hm)
  rw [hcnt] at hstatus
  obtain ⟨hdone, hhdr⟩ := hstatus
  obtain ⟨-, -, -, -, -, -, -, hpktRun, -⟩ := hcop.keeps
  refine ⟨t, ?_, by simpa using hcop.ip, hcop.op, hpktRun, (hcop.cntRle hrle).trans (congrArg (· - m) hcnt), hcop.draws, hdone,
    hhdr, hcop.pixels, hcop.others, ?_⟩
  · rw [Nat.add_comm, core_run_next _ _ _ ((step_eq_of_moves_nil hmoves).trans hopen), hrun]
  · rw [hpktRun]
    exact hcop.frame

/-- Settles O38: the PIX steps of raw mode, which go on to the last pixel. -/
theorem rawRunCopiesItsPixels : Obligations.RawRunCopiesItsPixels := by
  intro s f bs p px d m hi hmoves hst hs hraw hf hm hp hd hpx
  have hb : s.seq.busy = true := by rw [hs]; rfl
  have hop := hi.opBusy hb
  obtain ⟨t, hrun, hcop⟩ := run_copies_pixels hs hf hst hmoves (by simp [hraw]) (hi.total_le_outCap hb) ⟨by omega, .inl hraw⟩
    (by omega) hp hd (fun k hk => by
      obtain ⟨hlen, hbs, hdec, hx⟩ := hpx k hk
      exact ⟨⟨bs k, hlen, hbs, hdec⟩, hx⟩)
  have hend : s.op.toNat + m = s.total.toNat := by omega
  obtain ⟨hdone, hovr⟩ := hcop.last hend
  refine ⟨t, hrun, hdone, hcop.ip, BitVec.eq_of_toNat_eq (hcop.op.trans hend), hcop.draws, hcop.pixels, hend ▸ hcop.others, ?_⟩
  have hframe := hcop.frame
  rw [hcop.cntRaw hraw, hovr, hraw, Bool.false_and, Bool.or_false] at hframe
  exact hframe

end Sys2Proof.Machine
end

section
/-! SUPPORT. The pixel expander format by format, and the pixels and palette entries as instructions (41_pixel_expander.md). -/

namespace Sys2Proof.Machine

/-! ## `scale5` (R110) -/

theorem scale5_toNat (c : BitVec 5) : (scale5 c).toNat = 8 * c.toNat + c.toNat / 4 := by
  have hlt := c.isLt
  rw [scale5_eq, BitVec.toNat_ofNat]
  omega

/-- Settles O28: as a number `scale5` has the five bits of `c` from bit 3 on and `c / 4` below them. -/
theorem scale5IsBitReplication : Obligations.Scale5IsBitReplication := by
  intro c
  have hlt := c.isLt
  have hhigh : (8 * c.toNat + c.toNat / 4) / 8 = c.toNat := by omega
  refine ⟨scale5_toNat c, ?_, ?_⟩ <;> apply BitVec.eq_of_toNat_eq <;>
    simp only [BitVec.extractLsb'_toNat, Nat.shiftRight_eq_div_pow, scale5_toNat, Nat.reducePow] <;> omega

/-! ## `HAS_ALPHA` (R112) -/

theorem Cfg.alpha_eq_true_iff (c : Cfg) : c.alpha = true ↔ c.hasAlpha = 1 := beq_iff_eq

/-- Where a format has an alpha byte, `HAS_ALPHA` says whether it counts. -/
theorem Cfg.gated_alpha (c : Cfg) (a b : Byte) : (if c.alpha = true then a else b) = if c.hasAlpha = 1 then a else b :=
  if_congr c.alpha_eq_true_iff rfl rfl

/-- Settles O29, format by format. -/
theorem hasAlphaOnlyGatesAlpha : Obligations.HasAlphaOnlyGatesAlpha := by
  refine ⟨fun p s v hp => ?_, fun e u v => ?_⟩
  · cases p with
    | pal8 i => exact absurd rfl hp
    | true24 | mono8 => exact ⟨_, _, rfl, rfl, rfl, rfl, rfl, fun _ => ⟨rfl, rfl⟩⟩
    | true32 | true16 | mono16 => exact ⟨_, _, rfl, rfl, rfl, rfl, rfl, fun h => by simp [Pixel.fmt] at h⟩
  · cases e with
    | pe24 | pe16 => exact ⟨rfl, rfl, rfl, fun _ => rfl⟩
    | pe32 => exact ⟨rfl, rfl, rfl, fun h => by simp [PalEntry.fmt] at h⟩

/-! ## The formats that are not paletted (R101 to R105) -/

/-- A pixel that can be taken and expands without a free value is delivered by its instruction. -/
theorem exec_toInstr_ready {s : State} {p : Pixel} {px : Rgba} (h : PixelReady p.fmt s) (he : expand p s = .pixel px s.draws) :
    ∃ t, exec p.toInstr s = .next t ∧ Delivered px p.fmt.bytes s t := by
  rw [exec_toInstr]
  exact pixStep_ready h he

theorem expand_true32 (s : State) (b g r a : Byte) :
    expand (.true32 b g r a) s = .pixel ⟨r, g, b, if s.cfg.hasAlpha = 1 then a else 0xFF⟩ s.draws := by
  rw [expand, expandTrue32, Cfg.gated_alpha]

theorem expand_true16 (s : State) (b g r : BitVec 5) (ind : BitVec 1) :
    expand (.true16 b g r ind) s = .pixel ⟨scale5 r, scale5 g, scale5 b, if s.cfg.hasAlpha = 1 ∧ ind = 0 then 0x00 else 0xFF⟩
      s.draws := by
  have hclear : (s.cfg.alpha && ind == 0#1) = true ↔ s.cfg.hasAlpha = 1 ∧ ind = 0 := by
    rw [Bool.and_eq_true, Cfg.alpha_eq_true_iff, beq_iff_eq]; rfl
  rw [expand, expandTrue16, if_congr hclear rfl rfl]

theorem expand_mono16 (s : State) (y a : Byte) :
    expand (.mono16 y a) s = .pixel ⟨y, y, y, if s.cfg.hasAlpha = 1 then a else 0xFF⟩ s.draws := by
  rw [expand, expandMono16, Cfg.gated_alpha]

/-- Settles O17. -/
theorem pxTrue32Completes : Obligations.PxTrue32Completes :=
  fun s b g r a h => exec_toInstr_ready (p := .true32 b g r a) h (expand_true32 s b g r a)

/-- Settles O18: neither expansion reads the configuration. -/
theorem pxTrue24AndMono8Complete : Obligations.PxTrue24AndMono8Complete :=
  ⟨fun _ b g r h => exec_toInstr_ready (p := .true24 b g r) h rfl, fun _ y h => exec_toInstr_ready (p := .mono8 y) h rfl⟩

/-- Settles O19. -/
theorem pxTrue16Completes : Obligations.PxTrue16Completes := by
  intro s b g r ind h
  simp only [← scale5_eq]
  exact exec_toInstr_ready (p := .true16 b g r ind) h (expand_true16 s b g r ind)

/-- Settles O20. -/
theorem pxMono16Completes : Obligations.PxMono16Completes :=
  fun s y a h => exec_toInstr_ready (p := .mono16 y a) h (expand_mono16 s y a)

/-! ## The palette entries (R107 to R109) -/

theorem Cfg.palFormat_of_24 {c : Cfg} (h : c.palBpp = 24) : c.palFormat = some .pe24 := if_pos h

theorem Cfg.palFormat_of_32 {c : Cfg} (h : c.palBpp = 32) : c.palFormat = some .pe32 := by simp [Cfg.palFormat, h]

/-- 15-bit entries have the 16-bit layout (92_eei_decisions.md D9). -/
theorem Cfg.palFormat_of_16_or_15 {c : Cfg} (h : c.palBpp = 16 ∨ c.palBpp = 15) : c.palFormat = some .pe16 := by
  rcases h with h | h <;> simp [Cfg.palFormat, h]

theorem expandEntry_pe32 (c : Cfg) (b g r a : Byte) :
    expandEntry c.alpha (.pe32 b g r a) = ⟨r, g, b, if c.hasAlpha = 1 then a else 0xFF⟩ := by
  rw [expandEntry, expandPe32, Cfg.gated_alpha]

/-- An entry of the configuration's format is delivered by its instruction. -/
theorem exec_entry_toInstr_ready {s : State} {e : PalEntry} (h : PixelReady .pal8 s) (hf : s.cfg.palFormat = some e.fmt) :
    ∃ t, exec e.toInstr s = .next t ∧ Delivered (expandEntry s.cfg.alpha e) 1 s t := by
  rw [exec_entry_toInstr]
  exact entryStep_ready h hf

/-- Settles O23. -/
theorem pe24Completes : Obligations.Pe24Completes :=
  fun _ b g r h hbpp => exec_entry_toInstr_ready (e := .pe24 b g r) h (Cfg.palFormat_of_24 hbpp)

/-- Settles O24. -/
theorem pe32Completes : Obligations.Pe32Completes := by
  intro s b g r a h hbpp
  rw [← expandEntry_pe32]
  exact exec_entry_toInstr_ready (e := .pe32 b g r a) h (Cfg.palFormat_of_32 hbpp)

/-- Settles O25. -/
theorem pe16Completes : Obligations.Pe16Completes := by
  intro s b g r x h hbpp
  simp only [← scale5_eq]
  exact exec_entry_toInstr_ready (e := .pe16 b g r x) h (Cfg.palFormat_of_16_or_15 hbpp)

/-! ## The paletted pixels (R106) -/

/-- The entry has as many bytes as its format, and entries follow one another from address 0 of `PAL` on. -/
theorem State.entryBytes_of_palFormat {s : State} {f : PalFmt} (i : Byte) (h : s.cfg.palFormat = some f) :
    s.entryBytes i = readBytes s.palMem.get? f.bytes (i.toNat * f.bytes) s.draws := by
  rw [State.entryBytes, Cfg.ew_of_palFormat h]

/-- An index below `PAL_COUNT` delivers the colour of the entry it selects. -/
theorem exec_pxPal8_ready {s : State} {i : Byte} {f : PalFmt} (h : PixelReady .pal8 s) (hf : s.cfg.palFormat = some f)
    (hi : i.toNat < s.cfg.palCount.toNat) :
    ∃ e t, decodeEntry f (s.entryBytes i).1 = .ok (e, []) ∧ exec (.pxPal8 i) s = .next t
      ∧ Delivered (expandEntry s.cfg.alpha e) 1 { s with draws := (s.entryBytes i).2 } t := by
  rcases expandPal8_cases i s f hf with ⟨hbad, -⟩ | ⟨-, e, hd, -, hx⟩
  · omega
  · obtain ⟨t, ht, hdel⟩ := pixStep_ready (p := .pal8 i) h hx
    exact ⟨e, t, hd, (exec_toInstr (.pal8 i) s).trans ht, hdel⟩

/-- Settles O21. -/
theorem pxPal8SelectsItsEntry : Obligations.PxPal8SelectsItsEntry := by
  intro s i f h hf
  rw [← State.entryBytes_of_palFormat i hf]
  refine ⟨exec_pxPal8_ready h hf, fun hi => ?_⟩
  obtain ⟨hs, hfmt, hp, -⟩ := h
  exact (exec_toInstr (.pal8 i) s).trans (pixStep_badIndex hs hfmt hp (expand_eq_badIndex_iff.mpr ⟨i, rfl, hi⟩))

theorem encodeEntry_length (e : PalEntry) : (encodeEntry e).length = e.fmt.bytes := by cases e <;> rfl

/-- An entry whose bytes have all been written is decoded from them. -/
theorem exec_pxPal8_written {s : State} {i : Byte} {bs : List Byte} {e : PalEntry} (h : PixelReady .pal8 s)
    (hi : i.toNat < s.cfg.palCount.toNat) (hf : s.cfg.palFormat = some e.fmt)
    (hbs : ∀ k, k < bs.length → s.palMem.get? (bs.length * i.toNat + k) = bs[k]?) (hd : decodeEntry e.fmt bs = .ok (e, [])) :
    ∃ t, exec (.pxPal8 i) s = .next t ∧ Delivered (expandEntry s.cfg.alpha e) 1 s t := by
  have hlen : bs.length = e.fmt.bytes := by
    rw [← (encodeEntry_of_decodeEntry hd).1, List.append_nil, encodeEntry_length]
  have hread : s.entryBytes i = (bs, s.draws) := by
    rw [State.entryBytes_of_palFormat i hf, ← hlen, Nat.mul_comm]
    exact readBytes_known _ bs _ _ hbs
  obtain ⟨e', t, hd', ht, hdel⟩ := exec_pxPal8_ready h hf hi
  rw [hread] at hd' hdel
  obtain rfl : e = e' := by simpa [hd] using hd'
  exact ⟨t, ht, hdel⟩

/-! ### The fields of a 16-bit entry as numbers (R65) -/

theorem fields_le16 (b0 b1 : Byte) :
    blue5 (le16 b0 b1) = BitVec.ofNat 5 (b0.toNat + 256 * b1.toNat)
    ∧ green5 (le16 b0 b1) = BitVec.ofNat 5 ((b0.toNat + 256 * b1.toNat) / 32)
    ∧ red5 (le16 b0 b1) = BitVec.ofNat 5 ((b0.toNat + 256 * b1.toNat) / 1024) := by
  refine ⟨?_, ?_, ?_⟩ <;> apply BitVec.eq_of_toNat_eq <;>
    simp only [blue5, green5, red5, le16, BitVec.extractLsb'_toNat, BitVec.toNat_ofNat, Nat.shiftRight_eq_div_pow] <;> omega

/-- Settles O22, layout by layout. -/
theorem pxPal8DeliversTheEntryBytes : Obligations.PxPal8DeliversTheEntryBytes := by
  intro s i e0 e1 e2 e3 h hi
  refine ⟨fun hbpp h0 h1 h2 => ?_, fun hbpp h0 h1 h2 h3 => ?_, fun hbpp h0 h1 => ?_⟩
  · refine exec_pxPal8_written (bs := [e0, e1, e2]) (e := .pe24 e0 e1 e2) h hi (Cfg.palFormat_of_24 hbpp) ?_ rfl
    intro k (hk : k < 3)
    interval_cases k
    exacts [h0, h1, h2]
  · rw [← expandEntry_pe32]
    refine exec_pxPal8_written (bs := [e0, e1, e2, e3]) h hi (Cfg.palFormat_of_32 hbpp) ?_ rfl
    intro k (hk : k < 4)
    interval_cases k
    exacts [h0, h1, h2, h3]
  · obtain ⟨hblue, hgreen, hred⟩ := fields_le16 e0 e1
    rw [← hred, ← hgreen, ← hblue]
    refine exec_pxPal8_written (bs := [e0, e1]) (e := .pe16 _ _ _ (bit15 (le16 e0 e1))) h hi (Cfg.palFormat_of_16_or_15 hbpp) ?_ rfl
    intro k (hk : k < 2)
    interval_cases k
    exacts [h0, h1]

end Sys2Proof.Machine
end

section
/-! SUPPORT. The two commands (42_host_commands.md R124, R125), and that a run which START begins ends
(70_reset_and_hazards.md R181). -/

namespace Sys2Proof.Machine

/-! ## START and CLEAR, an equation for each case -/

theorem execStart_of_legal {s : State} (hs : s.seq = .idle) (hl : s.cfg.legal s.par = true) :
    execStart s = .next s.started := (if_pos hs).trans (if_pos hl)

theorem execStart_of_illegal {s : State} (hs : s.seq = .idle) (hl : s.cfg.legal s.par = false) :
    execStart s = .next (s.raise .eCfg) := (if_pos hs).trans (if_neg (Bool.eq_false_iff.mp hl))

theorem execStart_of_ne_idle {s : State} (hs : s.seq ≠ .idle) : execStart s = .next s := if_neg hs

theorem execClear_of_busy {s : State} (hb : s.seq.busy = true) : execClear s = .next s := if_pos hb

theorem execClear_of_not_busy {s : State} (hb : s.seq.busy = false) : execClear s = .next s.cleared :=
  if_neg (Bool.eq_false_iff.mp hb)

/-! ## What START writes -/

/-- `TOTAL` is the exact product of `WIDTH` and `HEIGHT` (10_state.md R12). -/
theorem started_total_toNat (s : State) : s.started.total.toNat = s.cfg.width.toNat * s.cfg.height.toNat := by
  rw [s.started_fields.1, BitVec.toNat_ofNat]
  exact Nat.mod_eq_of_lt s.cfg.pixels_lt

theorem Cfg.rle_eq_true_iff (c : Cfg) : c.rle = true ↔ c.ctrl = 1 := beq_iff_eq

/-- The state that a run of a legal configuration begins in (R124). -/
theorem started_seq (s : State) : s.started.seq
    = if s.cfg.width.toNat * s.cfg.height.toNat = 0 then .done else if s.cfg.ctrl = 1 then .hdr else .pix := by
  simp only [State.started_fields, Cfg.rle_eq_true_iff]
  rfl

theorem started_seq_ne_idle (s : State) : s.started.seq ≠ .idle := by
  rw [started_seq]
  split
  · simp
  · split <;> simp

/-- Settles O46. -/
theorem startBeginsARun : Obligations.StartBeginsARun := by
  intro s
  refine ⟨fun hs hl => ⟨s.started, execStart_of_legal hs hl, started_total_toNat s, ?_⟩, execStart_of_illegal,
    execStart_of_ne_idle⟩
  rw [← started_seq]
  rfl

/-- Settles O47: the six states are the three BUSY ones and the three others. -/
theorem clearReturnsToIdle : Obligations.ClearReturnsToIdle := by
  intro s
  refine ⟨fun hs => execClear_of_not_busy ?_, fun hs => execClear_of_busy ?_⟩
  · rcases hs with hs | hs | hs <;> rw [hs] <;> rfl
  · rcases hs with hs | hs | hs <;> rw [hs] <;> rfl

/-! ## The run that START begins -/

theorem Undisturbed.started {s : State} (hi : Inv s) (hl : s.cfg.legal s.par = true) (hm : s.moves = []) :
    Undisturbed s.started := ⟨hi.started hl, hm, started_seq_ne_idle s⟩

theorem mu_le_total (s : State) : s.mu ≤ 3 * s.total.toNat := by
  unfold State.mu
  split <;> omega

theorem pixelsLeft_le_total (s : State) : s.pixelsLeft ≤ s.total.toNat := by
  unfold State.pixelsLeft
  split <;> omega

/-- Settles O35, by mode: the measure of R181 is at most `3 * TOTAL`, and in raw mode the pixels left are at most `TOTAL`. -/
theorem startedRunEnds : Obligations.StartedRunEnds := by
  intro s t hi hs hl hm ht
  obtain rfl : s.started = t := by
    rw [show exec .start s = .next s.started from execStart_of_legal hs hl] at ht
    injection ht
  have hund : Undisturbed s.started := .started hi hl hm
  rw [← started_total_toNat]
  cases hr : s.cfg.rle with
  | true =>
    obtain ⟨k, u, hrun, hend, hk⟩ := hund.run_ends
    exact ⟨k, u, hrun, hend, hk.trans (mu_le_total _)⟩
  | false =>
    obtain ⟨k, u, hrun, hend, hk⟩ := hund.raw_run_ends hr
    refine ⟨k, u, hrun, hend, ?_⟩
    rw [if_neg Bool.false_ne_true, Nat.one_mul]
    exact hk.trans (pixelsLeft_le_total _)

end Sys2Proof.Machine
end

section
/-! SUPPORT. The host's reads and writes of the registers and the memories (42_host_commands.md R120 to R127), and what is left of
them while the block is BUSY. -/

namespace Sys2Proof.Machine

/-! ## An equation for each case of an access -/

/-- While BUSY a register write does nothing: a configuration register keeps its value, and both commands are ignored. -/
theorem writeReg_of_busy {s : State} (n v : Nat) (hb : s.seq.busy = true) : writeReg n v s = .next s := by
  have hidle : s.seq ≠ .idle := fun hs => by rw [hs] at hb; cases hb
  rw [writeReg, if_pos hb, writeCmd_eq, execStart_of_ne_idle hidle, execClear_of_busy hb]
  simp only [ite_self]

theorem writePal_of_busy {s : State} (a : BitVec 10) (v : Byte) (hb : s.seq.busy = true) : writePal a v s = .next s :=
  if_pos hb

theorem writePal_of_not_busy {s : State} (a : BitVec 10) (v : Byte) (hb : s.seq.busy = false) :
    writePal a v s = .next { s with palMem := s.palMem.set a.toNat v } := if_neg (Bool.eq_false_iff.mp hb)

theorem readPal_of_busy {s : State} (a : BitVec 10) (hb : s.seq.busy = true) : readPal a s = .next s.returnsFree :=
  if_pos hb

theorem readPal_of_not_busy {s : State} (a : BitVec 10) (hb : s.seq.busy = false) :
    readPal a s = .next (s.returnsByte (s.palMem.get? a.toNat)) := if_neg (Bool.eq_false_iff.mp hb)

/-- A byte of `PAL` that has been written is read outside BUSY. -/
theorem readPal_of_written {s : State} {a : BitVec 10} {b : Byte} (hb : s.seq.busy = false)
    (hbyte : s.palMem.get? a.toNat = some b) : readPal a s = .next (s.returns b.toNat) := by
  rw [readPal_of_not_busy a hb, hbyte, State.returnsByte]

/-- A byte of `PAL` that has never been written is a free value in any state. -/
theorem readPal_of_unwritten {s : State} {a : BitVec 10} (hbyte : s.palMem.get? a.toNat = none) :
    readPal a s = .next s.returnsFree := by
  rw [readPal, hbyte, State.returnsByte, ite_self]

theorem writeIn_of_lt {s : State} {a : Nat} (v : Byte) (ha : a < 2 ^ s.par.inAW) :
    writeIn a v s = .next { s with inMem := s.inMem.set a v, inStale := s.inStale || s.seq.busy } := if_pos ha

/-- A written byte of the image is read in DONE. -/
theorem readOut_of_written {s : State} {a : Nat} {b : Byte} (ha : a < 4 * s.par.outCap) (hs : s.seq = .done)
    (himg : a < 4 * s.total.toNat) (hbyte : s.outMem.get? a = some b) : readOut a s = .next (s.returns b.toNat) := by
  rw [readOut, if_pos ha, if_pos ⟨hs, himg⟩, hbyte, State.returnsByte]

theorem readOut_of_not_image {s : State} {a : Nat} (ha : a < 4 * s.par.outCap) (h : s.seq ≠ .done ∨ 4 * s.total.toNat ≤ a) :
    readOut a s = .next s.returnsFree :=
  (if_pos ha).trans (if_neg fun ⟨hs, himg⟩ => h.elim (· hs) (Nat.not_le_of_lt himg))

theorem writeOut_of_busy {s : State} (a : Nat) (v : Byte) (hb : s.seq.busy = true) :
    writeOut a v s = .refused .hostForbidden := if_pos hb

theorem writeOut_of_not_busy {s : State} {a : Nat} (v : Byte) (hb : s.seq.busy = false) (ha : a < 4 * s.par.outCap) :
    writeOut a v s = .next { s with outMem := s.outMem.set a v } := (if_neg (Bool.eq_false_iff.mp hb)).trans (if_pos ha)

/-! ## Reads -/

/-- Index 10 (`CMD`) and the indices above 13 read 0 (R126). -/
theorem State.readReg_of_unreadable (s : State) {n : Nat} (h : n = 10 ∨ 13 < n) : s.readReg n = 0 := by
  unfold State.readReg
  split
  case h_14 => rfl
  all_goals omega

/-- Settles O49. -/
theorem registerReadHasNoSideEffect : Obligations.RegisterReadHasNoSideEffect := by
  intro s n
  refine ⟨s.returns (s.readReg n), rfl, rfl, s.readReg_of_unreadable, ?_, ?_, ?_, ?_, ?_, ?_, ?_, ?_, ?_, ?_, ?_, ?_, ?_⟩
  all_goals rintro rfl; rfl

/-- Settles O59. -/
theorem paletteReadGivesTheByteOrAFreeValue : Obligations.PaletteReadGivesTheByteOrAFreeValue := by
  intro s a
  refine ⟨fun h => ?_, fun b hb hbyte => readPal_of_written hb hbyte⟩
  rcases h with hb | hbyte
  · exact readPal_of_busy a hb
  · exact readPal_of_unwritten hbyte

/-- In DONE every byte of the image is listed (10_state.md R31 items 1 and 6). -/
theorem Inv.image_written {s : State} (hi : Inv s) (hs : s.seq = .done) {a : Nat} (ha : a < 4 * s.total.toNat) :
    ∃ b, s.outMem.get? a = some b :=
  Option.ne_none_iff_exists'.mp (hi.written (.inr hs) a (by rw [hi.opDone hs]; exact ha))

/-- Settles O54. -/
theorem resultIsReadableOnlyInDone : Obligations.ResultIsReadableOnlyInDone := by
  intro s a hi ha
  refine ⟨fun hs himg => ?_, readOut_of_not_image ha⟩
  obtain ⟨b, hb⟩ := hi.image_written hs himg
  exact ⟨b, hb, readOut_of_written ha hs himg hb⟩

/-! ## Writes -/

/-- Settles O53, memory by memory; the fetch of a disturbed run is `fetch_stale`. -/
theorem hostWritesReachTheMemories : Obligations.HostWritesReachTheMemories := by
  intro s v
  refine ⟨fun a => ⟨fun hb => ?_, writePal_of_busy a v⟩, fun hst n => ?_, fun a ha => ?_,
    fun a ha => ⟨fun hb => ?_, writeOut_of_busy a v⟩⟩
  · exact ⟨_, writePal_of_not_busy a v hb, rfl, readPal_of_written hb (Mem.get?_set_self s.palMem a.toNat v),
      fun k => Mem.get?_set_ne s.palMem v⟩
  · rw [fetch_stale s n hst]
    exact ⟨rfl, fun k hk => by simp [hk]⟩
  · exact ⟨_, writeIn_of_lt v ha, rfl, Mem.get?_set_self s.inMem a v, fun k => Mem.get?_set_ne s.inMem v,
      iff_of_eq (Bool.or_eq_true s.inStale s.seq.busy)⟩
  · exact ⟨_, writeOut_of_not_busy v hb ha, rfl,
      fun hs himg => readOut_of_written ha hs himg (Mem.get?_set_self s.outMem a v), fun k => Mem.get?_set_ne s.outMem v⟩

/-! ## While BUSY -/

/-- Everything a host operation can do while BUSY: nothing, answer a read, or write `IN`. -/
theorem hostOp_next_of_busy {s t : State} {op : HostOp} (hb : s.seq.busy = true) (h : hostOp op s = .next t) :
    t = s ∨ (∃ v, t = s.returns v) ∨ t = s.returnsFree
    ∨ ∃ a v, op = .writeIn a v ∧ t = { s with inMem := s.inMem.set a v, inStale := s.inStale || s.seq.busy } := by
  cases op with
  | readReg n => cases h; exact .inr (.inl ⟨_, rfl⟩)
  | writeReg n v => cases (writeReg_of_busy n v hb).symm.trans h; exact .inl rfl
  | writePal a v => cases (writePal_of_busy a v hb).symm.trans h; exact .inl rfl
  | readPal a => cases (readPal_of_busy a hb).symm.trans h; exact .inr (.inr (.inl rfl))
  | writeIn a v =>
    by_cases ha : a < 2 ^ s.par.inAW
    · cases (writeIn_of_lt v ha).symm.trans h
      exact .inr (.inr (.inr ⟨a, v, rfl, rfl⟩))
    · cases (show writeIn a v s = .fault .inAddress from if_neg ha).symm.trans h
  | readOut a =>
    have hdone : s.seq ≠ .done := fun hs => by rw [hs] at hb; cases hb
    by_cases ha : a < 4 * s.par.outCap
    · cases (readOut_of_not_image ha (.inl hdone)).symm.trans h
      exact .inr (.inr (.inl rfl))
    · cases (show readOut a s = .fault .outAddress from if_neg ha).symm.trans h
  | writeOut a v => cases (writeOut_of_busy a v hb).symm.trans h

/-- Settles O55. -/
theorem hostCannotDisturbARun : Obligations.HostCannotDisturbARun := by
  intro s t op hb h
  rcases hostOp_next_of_busy hb h with rfl | ⟨v, rfl⟩ | rfl | ⟨a, v, rfl, rfl⟩
  · exact ⟨rfl, fun _ => ⟨rfl, rfl⟩⟩
  · exact ⟨rfl, fun _ => ⟨rfl, rfl⟩⟩
  · exact ⟨rfl, fun _ => ⟨rfl, rfl⟩⟩
  · exact ⟨rfl, fun hne => absurd rfl (hne a v)⟩

end Sys2Proof.Machine
end

section
/-! SUPPORT. What raises an error, what error entry writes, and what leaves the error state (60_exceptions.md R141 to R147). -/

namespace Sys2Proof.Machine

/-! ## What an item of the stream does to `STATUS.STATE` and `STATUS.ERR` -/

/-- An emit enters DONE or HDR or stays where it is (40_rle_packets.md R91). -/
theorem emitted_seq_cases (px : Rgba) (s : State) :
    (s.emitted px).seq = .done ∨ (s.emitted px).seq = .hdr ∨ (s.emitted px).seq = s.seq := by
  simp only [State.emitted_fields, endState]
  split
  · exact .inl rfl
  · split
    · exact .inr (.inl rfl)
    · exact .inr (.inr rfl)

theorem emitted_seq_ne_err {s : State} (px : Rgba) (hs : s.seq ≠ .err) : (s.emitted px).seq ≠ .err := by
  rcases emitted_seq_cases px s with h | h | h <;> rw [h]
  · simp
  · simp
  · exact hs

/-- What an item makes of `STATUS`: one of the two errors of a step and nothing else (R145), or no error entry at all. -/
def ErrorOrGoesOn (s t : State) : Prop :=
  t = s.raise .eTrunc ∨ t = s.raise .ePalIdx ∨ (t.seq ≠ .err ∧ t.err = s.err)

theorem deliver_goesOn {px : Rgba} {s t : State} (hs : s.seq ≠ .err) (h : deliver px s = .next t) :
    t.seq ≠ .err ∧ t.err = s.err := by
  rcases deliver_next h with ⟨-, -, rfl⟩ | ⟨-, -, rfl⟩
  · simp
  · exact ⟨emitted_seq_ne_err px (by simpa using hs), by simp⟩

theorem openPacket_errorOrGoesOn {r : Bool} {c : Nat} {s t : State} (h : openPacket r c s = .next t) :
    s.seq.busy = true ∧ ErrorOrGoesOn s t := by
  unfold openPacket at h
  split at h
  · rename_i hs
    refine ⟨by rw [hs]; rfl, ?_⟩
    split at h <;> cases h
    · exact .inr (.inr (by simp))
    · exact .inl rfl
  · cases h

theorem pixStep_errorOrGoesOn {p : Pixel} {s t : State} (h : pixStep p s = .next t) :
    s.seq.busy = true ∧ ErrorOrGoesOn s t := by
  obtain ⟨hs, -, hc⟩ := pixStep_next h
  refine ⟨by rw [hs]; rfl, ?_⟩
  rcases hc with ⟨-, rfl⟩ | ⟨-, -, rfl⟩ | ⟨-, px, d, -, hd⟩
  · exact .inl rfl
  · exact .inr (.inl rfl)
  · exact .inr (.inr (deliver_goesOn (s := s.setDraws d) (by simp [hs]) hd))

theorem entryStep_errorOrGoesOn {e : PalEntry} {s t : State} (h : entryStep e s = .next t) :
    s.seq.busy = true ∧ ErrorOrGoesOn s t := by
  unfold entryStep at h
  split at h
  · rename_i hc
    refine ⟨by rw [hc.1]; rfl, ?_⟩
    split at h
    · exact .inr (.inr (deliver_goesOn (by simp [hc.1]) h))
    · cases h
      exact .inl rfl
  · cases h

/-! ## What any instruction, and any step of the block, does to them -/

/-- An instruction that answers is a command, or an item of a busy block. -/
theorem exec_next {i : Instr} {s t : State} (h : exec i s = .next t) :
    (i = .start ∧ execStart s = .next t) ∨ (i = .clear ∧ execClear s = .next t)
    ∨ (s.seq.busy = true ∧ ErrorOrGoesOn s t) := by
  cases i with
  | start => exact .inl ⟨rfl, h⟩
  | clear => exact .inr (.inl ⟨rfl, h⟩)
  | run | lit => exact .inr (.inr (openPacket_errorOrGoesOn h))
  | rawpx p =>
    cases hr : s.cfg.rle with
    | true => cases (exec_rawpx_of_rle p hr).symm.trans h
    | false => exact .inr (.inr (pixStep_errorOrGoesOn ((exec_rawpx_of_raw p hr).symm.trans h)))
  | pxTrue32 | pxTrue24 | pxTrue16 | pxMono16 | pxMono8 | pxPal8 => exact .inr (.inr (pixStep_errorOrGoesOn h))
  | pe24 | pe32 | pe16 => exact .inr (.inr (entryStep_errorOrGoesOn h))

/-- A step of the block waits, or does what an item does once the free values of its fetch have been used. -/
theorem blockStep_errorOrGoesOn {s t : State} (h : blockStep s = .next t) :
    t = s ∨ ∃ d, ErrorOrGoesOn (s.setDraws d) t := by
  rcases blockStep_next h with ⟨-, rfl⟩ | ⟨-, -, rfl⟩ | ⟨-, -, d, r, c, -, -, rfl⟩ | ⟨-, -, rfl⟩ | ⟨-, -, d, rfl⟩
    | ⟨-, -, -, -, d, px, rfl⟩ | ⟨hs, -, -, -, d, px, rfl⟩ | ⟨hs, -, rfl⟩
  · exact .inl rfl
  · exact .inr ⟨s.draws, .inl rfl⟩
  · exact .inr ⟨d, .inr (.inr (by simp))⟩
  · exact .inr ⟨s.draws, .inl rfl⟩
  · exact .inr ⟨d, .inr (.inl rfl)⟩
  · exact .inr ⟨d, .inr (.inr (by simp))⟩
  · exact .inr ⟨d, .inr (.inr ⟨emitted_seq_ne_err px (by simp [hs]), by simp⟩)⟩
  · exact .inr ⟨s.draws, .inr (.inr ⟨emitted_seq_ne_err s.px (by simp [hs]), by simp⟩)⟩

theorem ErrorOrGoesOn.err_ne_eCfg {s t : State} (h : ErrorOrGoesOn s t) (hs : s.err ≠ .eCfg) : t.err ≠ .eCfg := by
  rcases h with rfl | rfl | ⟨-, he⟩
  · simp
  · simp
  · rwa [he]

theorem blockStep_err_ne_eCfg {s t : State} (h : blockStep s = .next t) (hs : s.err ≠ .eCfg) : t.err ≠ .eCfg := by
  rcases blockStep_errorOrGoesOn h with rfl | ⟨d, hd⟩
  · exact hs
  · exact hd.err_ne_eCfg hs

/-- Settles O41, by what the instruction is: a command, of which only START of an illegal configuration raises, or an item. -/
theorem onlyStartRaisesConfigurationError : Obligations.OnlyStartRaisesConfigurationError := by
  intro i s t h hs
  rw [← and_assoc]
  refine ⟨?_, fun u hu => blockStep_err_ne_eCfg hu hs⟩
  rcases exec_next h with ⟨rfl, hstart⟩ | ⟨rfl, hclear⟩ | ⟨hb, hitem⟩
  · rcases execStart_next hstart with ⟨-, hl, rfl⟩ | ⟨hidle, hl, rfl⟩ | ⟨hidle, rfl⟩
    · simp [hl]
    · exact ⟨by simp [hidle, hl], fun _ => rfl⟩
    · simp [hs, hidle]
  · rcases execClear_next hclear with ⟨-, rfl⟩ | ⟨-, rfl⟩
    · simp [hs]
    · simp
  · have hidle : s.seq ≠ .idle := fun hidle => by rw [hidle] at hb; cases hb
    simp [hitem.err_ne_eCfg hs, hidle]

/-- Settles O42: the entries into ERR are START's and those of the items, and each is `State.raise`. -/
theorem errorEntryWritesOnlyStatus : Obligations.ErrorEntryWritesOnlyStatus := by
  refine ⟨fun i s t h hs ht => ?_, fun s t h hs ht => ?_⟩
  · rcases exec_next h with ⟨-, hstart⟩ | ⟨-, hclear⟩ | ⟨-, rfl | rfl | ⟨hne, -⟩⟩
    · rcases execStart_next hstart with ⟨-, -, rfl⟩ | ⟨-, -, rfl⟩ | ⟨-, rfl⟩
      · rw [started_seq] at ht
        split_ifs at ht
      · exact ⟨.inl rfl, rfl⟩
      · exact absurd ht hs
    · rcases execClear_next hclear with ⟨-, rfl⟩ | ⟨-, rfl⟩
      · exact absurd ht hs
      · simp at ht
    · exact ⟨.inr (.inl rfl), rfl⟩
    · exact ⟨.inr (.inr rfl), rfl⟩
    · exact absurd ht hne
  · rcases blockStep_errorOrGoesOn h with rfl | ⟨d, rfl | rfl | ⟨hne, -⟩⟩
    · exact absurd ht hs
    · exact ⟨.inl rfl, rfl⟩
    · exact ⟨.inr rfl, rfl⟩
    · exact absurd ht hne

/-! ## Which error a step of a run raises -/

/-- During a run `STATUS.ERR` is 0 (10_state.md R31 item 3). -/
theorem Inv.err_eq_none_of_busy {s : State} (hi : Inv s) (hb : s.seq.busy = true) : s.err = .none := by
  by_contra he
  rw [hi.errIff.mp he] at hb
  cases hb

/-- The item that the next step needs does not lie wholly below `IN_LEN` (R142). -/
def State.truncatedNext (s : State) : Prop :=
  (s.seq = .hdr ∧ s.cfg.inLen ≤ s.ip) ∨ (s.seq = .pix ∧ s.cfg.inLen < s.ip + s.cfg.bytes)

/-- The next step is the PIX step of a paletted pixel whose byte exists and is out of range (R143). -/
def State.palIndexErrorNext (s : State) : Prop :=
  s.seq = .pix ∧ s.cfg.imgType = 1#2 ∧ s.ip + 1 ≤ s.cfg.inLen ∧ ∃ b, (s.fetch 1).1 = [b] ∧ s.cfg.palCount.toNat ≤ b.toNat

/-- A paletted pixel of a run has one byte (10_state.md R22). -/
theorem Inv.bytes_eq_one {s : State} (hi : Inv s) (hb : s.seq.busy = true) (ht : s.cfg.imgType = 1#2) : s.cfg.bytes = 1 := by
  obtain ⟨f, hf, -⟩ := Cfg.legal_formats (hi.busyLegal hb).1
  rw [Cfg.bytes_of_format hf, (Cfg.format_eq_pal8_iff hf).mpr ht]
  rfl

/-- `E_TRUNC` and `E_PALIDX` exclude each other: the index is looked at only if its byte exists (R143). -/
theorem Inv.not_truncated_of_palIndexError {s : State} (hi : Inv s) (h : s.palIndexErrorNext) : ¬ s.truncatedNext := by
  obtain ⟨hs, ht, hp, -⟩ := h
  have hone := hi.bytes_eq_one (by rw [hs]; rfl) ht
  rintro (⟨hs', -⟩ | ⟨-, hlt⟩)
  · rw [hs] at hs'; cases hs'
  · omega

/-- The PIX step of a run with too few bytes left. -/
theorem Inv.blockStep_pix_truncated {s : State} (hi : Inv s) (hs : s.seq = .pix) (hp : s.cfg.inLen < s.ip + s.cfg.bytes) :
    Machine.blockStep s = .next (s.raise .eTrunc) := by
  obtain ⟨f, hf, -⟩ := Cfg.legal_formats (hi.busyLegal (by rw [hs]; rfl)).1
  have hpres : s.present s.cfg.bytes = false := decide_eq_false (by omega)
  rcases pixItem_eq hf with ⟨-, he⟩ | ⟨habs, -⟩
  · exact (blockStep_of_pix hs).trans he
  · rw [hpres] at habs; cases habs

/-- The three ways a step of a busy block can go: `E_TRUNC`, `E_PALIDX`, or no error. -/
theorem Inv.blockStep_error_cases {s t : State} (hi : Inv s) (hb : s.seq.busy = true) (ht : Machine.blockStep s = .next t) :
    (s.truncatedNext ∧ t = s.raise .eTrunc)
    ∨ (s.palIndexErrorNext ∧ t = (s.setDraws (s.fetch 1).2).raise .ePalIdx)
    ∨ (¬ s.truncatedNext ∧ ¬ s.palIndexErrorNext ∧ t.err = .none) := by
  have herr := hi.err_eq_none_of_busy hb
  cases hs : s.seq with
  | idle | done | err => rw [hs] at hb; cases hb
  | hdr =>
    rcases hdrItem_eq s hs with ⟨hp, he⟩ | ⟨hp, b, -, he⟩ <;> cases he.symm.trans ht <;>
      simp only [State.present, decide_eq_false_iff_not, decide_eq_true_eq] at hp
    · exact .inl ⟨.inl ⟨hs, by omega⟩, rfl⟩
    · refine .inr (.inr ⟨?_, by simp [State.palIndexErrorNext, hs], by simpa using herr⟩)
      simp only [State.truncatedNext, hs, true_and, reduceCtorEq, false_and, or_false]
      omega
  | pix =>
    by_cases hp : s.cfg.inLen < s.ip + s.cfg.bytes
    · cases (hi.blockStep_pix_truncated hs hp).symm.trans ht
      exact .inl ⟨.inr ⟨hs, hp⟩, rfl⟩
    · right
      rcases hi.blockStep_pix_present hs (by omega) with ⟨hbad, he⟩ | ⟨hok, px, d, he⟩
      · have hone := hi.bytes_eq_one hb hbad.1
        rw [hone] at he hp
        cases he.symm.trans ht
        exact .inl ⟨⟨hs, hbad.1, by omega, hbad.2⟩, rfl⟩
      · have hgoes := deliver_goesOn (s := s.setDraws d) (by simp [hs]) (he.symm.trans ht)
        refine .inr ⟨by simpa [State.truncatedNext, hs] using hp, ?_, hgoes.2.trans herr⟩
        rintro ⟨-, himg, -, hbyte⟩
        exact hok ⟨himg, hbyte⟩
  | rep =>
    obtain ⟨-, rfl⟩ := emit_next.mp ((blockStep_of_rep hs).symm.trans ht)
    exact .inr (.inr ⟨by simp [State.truncatedNext, hs], by simp [State.palIndexErrorNext, hs], by simpa using herr⟩)

/-- Settles O39. -/
theorem truncationIsRaisedExactly : Obligations.TruncationIsRaisedExactly := by
  intro s t hi hb ht
  change (t.err = .eTrunc ↔ s.truncatedNext) ∧ _
  rcases hi.blockStep_error_cases hb ht with ⟨htr, rfl⟩ | ⟨hpal, rfl⟩ | ⟨htr, -, he⟩
  · exact ⟨by simp [htr], fun _ => rfl⟩
  · simp [hi.not_truncated_of_palIndexError hpal]
  · simp [htr, he]

/-- Settles O40. -/
theorem paletteIndexErrorIsRaisedExactly : Obligations.PaletteIndexErrorIsRaisedExactly := by
  intro s t hi hb ht
  change (t.err = .ePalIdx ↔ s.palIndexErrorNext) ∧ _
  rcases hi.blockStep_error_cases hb ht with ⟨htr, rfl⟩ | ⟨hpal, rfl⟩ | ⟨-, hpal, he⟩
  · have hpal : ¬ s.palIndexErrorNext := fun hpal => hi.not_truncated_of_palIndexError hpal htr
    simp [hpal]
  · exact ⟨by simp [hpal], fun _ => rfl⟩
  · simp [hpal, he]

/-! ## Leaving the error state -/

/-- A read of the host leaves `STATUS` as it is. -/
theorem State.returnsByte_status (s : State) (b : Option Byte) : (s.returnsByte b).seq = s.seq ∧ (s.returnsByte b).err = s.err := by
  cases b <;> exact ⟨rfl, rfl⟩

/-- Of the host's operations only a command changes the state of the sequencer or the cause. -/
theorem hostOp_status {op : HostOp} {s t : State} (hop : ∀ v, op ≠ .writeReg 10 v) (h : hostOp op s = .next t) :
    t.seq = s.seq ∧ t.err = s.err := by
  cases op with
  | readReg n => cases h; exact ⟨rfl, rfl⟩
  | writeReg n v =>
    rw [hostOp, writeReg, if_neg fun hn : n = 10 => hop v (by rw [hn])] at h
    split at h <;> cases h <;> exact ⟨rfl, rfl⟩
  | writePal a v =>
    rw [hostOp, writePal] at h
    split at h <;> cases h <;> exact ⟨rfl, rfl⟩
  | readPal a =>
    rw [hostOp, readPal] at h
    split at h <;> cases h
    · exact ⟨rfl, rfl⟩
    · exact s.returnsByte_status _
  | writeIn a v =>
    rw [hostOp, writeIn] at h
    split at h <;> cases h
    exact ⟨rfl, rfl⟩
  | readOut a =>
    rw [hostOp, readOut] at h
    split at h
    · split at h <;> cases h
      · exact s.returnsByte_status _
      · exact ⟨rfl, rfl⟩
    · cases h
  | writeOut a v =>
    rw [hostOp, writeOut] at h
    split at h
    · cases h
    · split at h <;> cases h
      exact ⟨rfl, rfl⟩

/-- A write of `CMD` that is not CLEAR does nothing outside IDLE: START is ignored there (42_host_commands.md R124). -/
theorem writeCmd_of_ne_idle {s : State} {v : Nat} (hs : s.seq ≠ .idle) (hv : v % 4 ≠ 2) : writeCmd v s = .next s := by
  rw [writeCmd_eq, execStart_of_ne_idle hs, if_neg hv, ite_self]

/-- In ERR no instruction but CLEAR changes anything: START is ignored, and no item is taken. -/
theorem exec_of_err {i : Instr} {s t : State} (hs : s.seq = .err) (hi : i ≠ .clear) (h : exec i s = .next t) : t = s := by
  rcases exec_next h with ⟨-, hstart⟩ | ⟨hclear, -⟩ | ⟨hb, -⟩
  · cases (execStart_of_ne_idle (by simp [hs])).symm.trans hstart
    rfl
  · exact absurd hclear hi
  · rw [hs] at hb; cases hb

/-- Settles O43, by who moves: the block, an instruction, or the host, whose write of `CMD` is a command. -/
theorem onlyClearLeavesTheErrorState : Obligations.OnlyClearLeavesTheErrorState := by
  intro s hs
  have hb : s.seq.busy = false := by rw [hs]; rfl
  have hidle : s.seq ≠ .idle := by simp [hs]
  refine ⟨blockStep_of_not_busy hb, fun i t => exec_of_err hs, fun op t hop h => ?_, execStart_of_ne_idle hidle,
    execClear_of_not_busy hb⟩
  by_cases hcmd : ∃ v, op = .writeReg 10 v
  · obtain ⟨v, rfl⟩ := hcmd
    cases (writeCmd_of_ne_idle hidle (hop v rfl)).symm.trans h
    exact ⟨hs, rfl⟩
  · rw [← hs]
    exact hostOp_status (not_exists.mp hcmd) h

end Sys2Proof.Machine
end

section
/-! SUPPORT. Reset as an event (70_reset_and_hazards.md R160), and the measure of R181 in one step of the block. -/

namespace Sys2Proof.Machine

/-- Every register reads 0 after the reset event, whatever the state before it (10_state.md R30). -/
theorem readReg_resetEvent (s : State) (n : Nat) : s.resetEvent.readReg n = 0 := readReg_reset n

/-- Settles O2. -/
theorem resetIsAvailableInEveryState : Obligations.ResetIsAvailableInEveryState := fun s =>
  ⟨s.resetEvent, rfl, readReg_resetEvent s, rfl, rfl, rfl, rfl, rfl, rfl, fun _ => rfl, fun _ => rfl, rfl⟩

/-- Settles O33: the step has an answer and lowers the measure, so the measure was not 0. -/
theorem blockStepLowersTheMeasure : Obligations.BlockStepLowersTheMeasure := by
  intro s hi hb
  obtain ⟨t, ht⟩ := hi.blockStep_answers
  have hlt : t.mu < s.mu := hi.blockStep_mu_lt hb ht
  exact ⟨Nat.one_le_of_lt hlt, t, ht, hlt⟩

end Sys2Proof.Machine
end

section
/-! SUPPORT. The headers that the host accepts, and the configurations they give (70_reset_and_hazards.md R169 to R171). -/

namespace Sys2Proof.Machine.HostDuties

/-- Validation passes the header on as it is, and only a whitelisted one (R171). -/
theorem validate_ok {h h' : Header} (hv : validate h = .ok h') : h' = h ∧ h.whitelisted = true := by
  unfold validate at hv
  split at hv
  · rename_i hc
    cases hv
    exact ⟨rfl, (Bool.and_eq_true_iff.mp hc).2⟩
  · cases hv

/-- The whitelist, kind by kind, as far as START looks at it. -/
theorem whitelisted_cases {h : Header} (hw : h.whitelisted = true) :
    (h.kind = 1 ∧ h.bpp = 8 ∧ h.paletteFirst.toNat < h.paletteLength.toNat
      ∧ (h.paletteBpp = 15 ∨ h.paletteBpp = 16 ∨ h.paletteBpp = 24 ∨ h.paletteBpp = 32))
    ∨ (h.kind = 2 ∧ (h.bpp = 16 ∨ h.bpp = 24 ∨ h.bpp = 32))
    ∨ (h.kind = 3 ∧ (h.bpp = 8 ∨ h.bpp = 16)) := by
  unfold Header.whitelisted at hw
  split at hw
  · rename_i hk
    simp only [Bool.and_eq_true, Bool.or_eq_true, decide_eq_true_eq, or_assoc] at hw
    obtain ⟨⟨⟨-, hbpp⟩, hfirst⟩, hpal⟩ := hw
    exact .inl ⟨hk, hbpp, hfirst, hpal⟩
  · split at hw
    · rename_i hk
      simp only [Bool.and_eq_true, Bool.or_eq_true, decide_eq_true_eq] at hw
      exact .inr (.inl ⟨hk, by tauto⟩)
    · split at hw
      · rename_i hk
        simp only [Bool.and_eq_true, Bool.or_eq_true, decide_eq_true_eq] at hw
        exact .inr (.inr ⟨hk, by tauto⟩)
      · cases hw

/-- A paletted image that keeps an entry has a nonzero `PAL_COUNT` (R168): the difference fits in 16 bits. -/
theorem palCount_ne_zero {h : Header} (hk : h.kind = 1) (hfirst : h.paletteFirst.toNat < h.paletteLength.toNat) :
    BitVec.ofNat 16 h.palCount ≠ 0#16 := by
  have hlen := h.paletteLength.isLt
  have hkept : h.palCount = h.paletteLength.toNat - h.paletteFirst.toNat := if_pos hk
  rw [hkept, Ne, ← BitVec.toNat_inj, BitVec.toNat_ofNat, BitVec.toNat_zero]
  omega

/-- Settles O57: R22 item by item, for each kind of image that the whitelist lets pass. -/
theorem validatedHeaderIsLegal : Obligations.ValidatedHeaderIsLegal := by
  intro h h' par ha len hv hcap
  obtain ⟨rfl, hw⟩ := validate_ok hv
  rw [Cfg.legal_iff]
  change (h'.kind = 1 ∨ h'.kind = 2 ∨ h'.kind = 3) ∧ (h'.kind = 1 → _) ∧ (h'.kind = 2 → _) ∧ (h'.kind = 3 → _) ∧ _
  rcases whitelisted_cases hw with ⟨hk, hbpp, hfirst, hpal⟩ | ⟨hk, hbpp⟩ | ⟨hk, hbpp⟩
  · exact ⟨.inl hk, fun _ => ⟨hbpp, hpal, palCount_ne_zero hk hfirst⟩, by simp [hk], by simp [hk], hcap⟩
  · exact ⟨.inr (.inl hk), by simp [hk], fun _ => hbpp, by simp [hk], hcap⟩
  · exact ⟨.inr (.inr hk), by simp [hk], by simp [hk], fun _ => hbpp, hcap⟩

end Sys2Proof.Machine.HostDuties
end

section
/-! SUPPORT. The orientation pass (70_reset_and_hazards.md R175). -/

namespace Sys2Proof.Machine.HostDuties

/-- Reversing the order of `n` places, or leaving it. -/
def mirror (keep : Bool) (n k : Nat) : Nat := if keep then k else n - 1 - k

theorem mirror_lt (keep : Bool) {n k : Nat} (hk : k < n) : mirror keep n k < n := by
  unfold mirror
  split <;> omega

theorem mirror_mirror (keep : Bool) {n k : Nat} (hk : k < n) : mirror keep n (mirror keep n k) = k := by
  unfold mirror
  split <;> omega

/-- The place that the pass reads is the mirrored row and the mirrored column. -/
theorem orientIndex_eq (w h : Nat) (flags : Byte) (p : Nat) :
    orientIndex w h flags p = mirror (flags.getLsbD 5) h (p / w) * w + mirror (!flags.getLsbD 4) w (p % w) := by
  unfold orientIndex mirror
  cases flags.getLsbD 4 <;> rfl

/-- A pixel of the image lies in one of `h` rows and one of `w` columns. -/
theorem row_column_lt {w h p : Nat} (hp : p < w * h) : p / w < h ∧ p % w < w := by
  have hw : 0 < w := Nat.pos_of_mul_pos_right (Nat.zero_lt_of_lt hp)
  exact ⟨Nat.div_lt_of_lt_mul hp, Nat.mod_lt p hw⟩

/-- The row and the column of the place that the pass reads. -/
theorem orientIndex_row_column {w h p : Nat} (flags : Byte) (hp : p < w * h) :
    orientIndex w h flags p / w = mirror (flags.getLsbD 5) h (p / w)
    ∧ orientIndex w h flags p % w = mirror (!flags.getLsbD 4) w (p % w) := by
  obtain ⟨-, hcol⟩ := row_column_lt hp
  have hm := mirror_lt (!flags.getLsbD 4) hcol
  rw [orientIndex_eq, Nat.mul_comm]
  exact ⟨by rw [Nat.mul_add_div (by omega), Nat.div_eq_of_lt hm, Nat.add_zero], by rw [Nat.mul_add_mod, Nat.mod_eq_of_lt hm]⟩

theorem orientIndex_lt {w h p : Nat} (flags : Byte) (hp : p < w * h) : orientIndex w h flags p < w * h := by
  obtain ⟨hrow, hcol⟩ := row_column_lt hp
  have hr : mirror (flags.getLsbD 5) h (p / w) + 1 ≤ h := mirror_lt _ hrow
  have hc := mirror_lt (!flags.getLsbD 4) hcol
  calc orientIndex w h flags p
      < (mirror (flags.getLsbD 5) h (p / w) + 1) * w := by rw [orientIndex_eq, Nat.add_one_mul]; omega
    _ ≤ h * w := Nat.mul_le_mul_right w hr
    _ = w * h := Nat.mul_comm h w

theorem orientIndex_orientIndex {w h p : Nat} (flags : Byte) (hp : p < w * h) :
    orientIndex w h flags (orientIndex w h flags p) = p := by
  obtain ⟨hrow, hcol⟩ := row_column_lt hp
  obtain ⟨hr, hc⟩ := orientIndex_row_column flags hp
  rw [orientIndex_eq, hr, hc, mirror_mirror _ hrow, mirror_mirror _ hcol, Nat.div_add_mod']

@[simp] theorem orient_length (w h : Nat) (flags : Byte) (px : List Rgba) : (orient w h flags px).length = w * h := by
  simp [orient]

/-- Pixel `p` after the pass. -/
theorem orient_getD {w h p : Nat} (flags : Byte) (px : List Rgba) (hp : p < w * h) :
    (orient w h flags px).getD p ⟨0, 0, 0, 0⟩ = px.getD (orientIndex w h flags p) ⟨0, 0, 0, 0⟩ := by
  simp [orient, List.getD_eq_getElem?_getD, hp]

/-- Settles O58: each pixel comes from the place of its place. -/
theorem orientationPassIsAnInvolution : Obligations.OrientationPassIsAnInvolution := by
  intro w h flags px hlen
  refine List.ext_getElem (by rw [orient_length, hlen]) fun p hp hp' => ?_
  have hp : p < w * h := by simpa using hp
  have hpass : (orient w h flags (orient w h flags px)).getD p ⟨0, 0, 0, 0⟩ = px.getD p ⟨0, 0, 0, 0⟩ := by
    rw [orient_getD flags _ hp, orient_getD flags px (orientIndex_lt flags hp), orientIndex_orientIndex flags hp]
  simpa [List.getD_eq_getElem?_getD, hp, hp'] using hpass

end Sys2Proof.Machine.HostDuties
end

section
/-! SUPPORT. The host's whole work for one file (70_reset_and_hazards.md R163, R174, R178, R181). -/

namespace Sys2Proof.Machine.HostDuties

/-! ## STATUS in a value that the host has read -/

theorem statusState_eq {s : State} (hr : s.rdata = s.status.toNat) : statusState s.rdata = s.seq.code.toNat := by
  rw [hr, statusState_status]

theorem statusErr_eq {s : State} (hr : s.rdata = s.status.toNat) : statusErr s.rdata = s.err.code.toNat := by
  rw [hr, statusErr_status]

/-! ## Copying the image and reporting an error (R163 items 6 and 7) -/

/-- The byte of `OUT` at an address that has been written. -/
def outByte (s : State) (a : Nat) : Byte := (s.outMem.get? a).getD 0

/-- Pixel `k` of `OUT` (20_memory.md R41). -/
def outPixel (s : State) (k : Nat) : Rgba :=
  ⟨outByte s (4 * k), outByte s (4 * k + 1), outByte s (4 * k + 2), outByte s (4 * k + 3)⟩

theorem outByte_written {s : State} (hi : Inv s) (hs : s.seq = .done) {a : Nat} (ha : a < 4 * s.total.toNat) :
    s.outMem.get? a = some (outByte s a) := by
  obtain ⟨b, hb⟩ := hi.image_written hs ha
  rw [outByte, hb, Option.getD_some]

/-- In DONE the host copies the image and gets its pixels. -/
theorem readImage_done {s : State} (hi : Inv s) (hs : s.seq = .done) :
    ∃ bytes v, readImage (4 * s.total.toNat) 0 s = .next (bytes, s.returns v)
      ∧ pixelsOf bytes = (List.range s.total.toNat).map (outPixel s) := by
  obtain ⟨v, hv⟩ := readImage_known (4 * s.total.toNat) s 0 (outByte s) hs fun k hk => by
    rw [Nat.zero_add]
    have hb := outByte_written hi hs hk
    exact ⟨hk, Mem.lt_of_below hi.sizes.2.2 (by simp [hb]), hb⟩
  simp only [Nat.zero_add] at hv
  exact ⟨_, v, hv, pixelsOf_range _ _⟩

/-- The end of a run in DONE: the oriented pixels of `OUT`, and the block in IDLE. -/
theorem finish_done {p : Plan} {s : State} (hi : Inv s) (hs : s.seq = .done) (hr : s.rdata = s.status.toNat)
    (htot : s.total.toNat = p.header.width.toNat * p.header.height.toNat) :
    ∃ v, finish p s = .next (.image {
        pixels := orient p.header.width.toNat p.header.height.toNat p.header.flags
          ((List.range s.total.toNat).map (outPixel s))
        width := p.header.width
        height := p.header.height
        model := p.model }, (s.returns v).cleared) := by
  obtain ⟨bytes, v, hread, hpx⟩ := readImage_done hi hs
  have hclear : writeClear (s.returns v) = .next (s.returns v).cleared :=
    execClear_of_not_busy (by simp [hs, SeqState.busy])
  refine ⟨v, ?_⟩
  rw [finish, if_pos (by rw [statusState_eq hr, hs]; rfl), ← htot, hread, andThen_next, hclear, andThen_next, ← hpx]
  rfl

/-- The end of a run in ERR: the report of the cause, and the block in IDLE. -/
theorem finish_err {p : Plan} {s : State} (hs : s.seq = .err) (hr : s.rdata = s.status.toNat) :
    finish p s = .next (.error (reportOf s.err.code.toNat), s.cleared) := by
  have hclear : writeClear s = .next s.cleared := execClear_of_not_busy (by simp [hs, SeqState.busy])
  have hstate : statusState s.rdata = 5 := by rw [statusState_eq hr, hs]; rfl
  rw [finish, if_neg (by omega), if_pos hstate, hclear, andThen_next, statusErr_eq hr]

/-- The three causes and their reports (R163 item 6). -/
theorem reportOf_code {e : ErrCode} (he : e ≠ .none) : reportOf e.code.toNat
    = if e = .eTrunc then .truncatedStream else if e = .ePalIdx then .paletteIndexOutOfRange else .blockRefused := by
  cases e with
  | none => exact absurd rfl he
  | eCfg => rfl
  | eTrunc => rfl
  | ePalIdx => rfl

/-! ## Waiting for a run to end -/

/-- The run that `s` was in has ended in `t`, and the host has seen that it has. -/
structure Ended (s t : State) : Prop where
  inv : Inv t
  ended : t.seq = .done ∨ t.seq = .err
  seen : t.rdata = t.status.toNat
  par : t.par = s.par
  total : t.total = s.total
  cause : s.err ≠ .eCfg → t.err ≠ .eCfg

/-- A step of a run does not lead back to IDLE. -/
theorem blockStep_ne_idle {s t : State} (hi : Inv s) (hb : s.seq.busy = true) (ht : blockStep s = .next t) :
    t.seq ≠ .idle := by
  rcases hi.blockStep_progress hb ht with he | ⟨-, hb', -⟩ | ⟨hne, -⟩
  · simp [he]
  · intro hidle; rw [hidle] at hb'; cases hb'
  · exact hne

/-- A run that has ended is seen at once. -/
theorem poll_of_not_busy {s : State} (n : Nat) (hi : Inv s) (hne : s.seq ≠ .idle) (hb : s.seq.busy = false) :
    ∃ t, poll n s = .next t ∧ Ended s t := by
  have hend : s.seq = .done ∨ s.seq = .err := by
    cases hs : s.seq <;> simp [hs, SeqState.busy] at hne hb ⊢
  exact ⟨_, poll_ended n s hend, hi.returns _, hend, rfl, rfl, rfl, id⟩

/-- A host that waits for the steps R181 bounds sees the run end. -/
theorem poll_ends {n : Nat} {s : State} (hi : Inv s) (hne : s.seq ≠ .idle) (hn : s.mu ≤ n) :
    ∃ t, poll n s = .next t ∧ Ended s t := by
  induction n generalizing s with
  | zero =>
    refine poll_of_not_busy 0 hi hne (Bool.eq_false_iff.mpr fun hb => ?_)
    obtain ⟨hmu, -⟩ := blockStepLowersTheMeasure s hi hb
    omega
  | succ n ih =>
    cases hb : s.seq.busy with
    | false => exact poll_of_not_busy (n + 1) hi hne hb
    | true =>
      have hread : Inv (s.returns s.status.toNat) := hi.returns _
      obtain ⟨-, u, hu, hlt⟩ := blockStepLowersTheMeasure _ hread hb
      obtain ⟨-, hpar, -, -, htot, -⟩ := blockStepTouchesOnlyItsPixel _ _ hu
      obtain ⟨t, ht, hend⟩ := ih (hread.blockStep hu) (blockStep_ne_idle hread hb hu) (by
        have hmu : (s.returns s.status.toNat).mu = s.mu := rfl
        omega)
      exact ⟨t, (poll_busy n s u hb hu).trans ht, hend.inv, hend.ended, hend.seen, hend.par.trans hpar, hend.total.trans htot,
        fun hc => hend.cause (blockStep_err_ne_eCfg hu hc)⟩

/-! ## Bringing the block to IDLE and configuring it (R163 items 3 to 5) -/

/-- Whatever the block was doing, it gets to IDLE. -/
theorem bringToIdle_idle {n : Nat} {s : State} (hi : Inv s) (hn : s.mu ≤ n) :
    ∃ t, bringToIdle n s = .next t ∧ Inv t ∧ t.seq = .idle ∧ t.rdata = t.status.toNat ∧ t.par = s.par := by
  rw [bringToIdle, readStatus_eq, andThen_next, statusState_eq (s := s.returns s.status.toNat) rfl]
  by_cases hs : s.seq = .idle
  · exact ⟨_, if_pos (by simp [hs, SeqState.code]), hi.returns _, hs, rfl, rfl⟩
  · have hcode : s.seq.code.toNat ≠ 0 := by cases hs' : s.seq <;> simp [hs', SeqState.code] at hs ⊢
    obtain ⟨u, hu, hend⟩ := poll_ends (hi.returns s.status.toNat) hs hn
    have hb : u.seq.busy = false := by rcases hend.ended with h | h <;> rw [h] <;> rfl
    rw [if_neg (by simpa using hcode), hu, andThen_next, writeClear_eq, execClear_of_not_busy hb, andThen_next, readStatus_eq]
    exact ⟨_, rfl, hend.inv.cleared.returns _, rfl, rfl, hend.par⟩

theorem perform_singleton (m : Move) (s : State) : perform [m] s = takeMove m s := by
  rw [perform]
  cases takeMove m s <;> rfl

/-- The host's writes before START leave the block in IDLE with the header's configuration, the two addresses in `IN_AW` bits. -/
theorem perform_moves {p : Plan} {bs : List Byte} {s : State} (hi : Inv s) (hs : s.seq = .idle)
    (hlen : bs.length < 2 ^ s.par.inAW) :
    ∃ u, perform (p.moves bs) s = execStart u ∧ Inv u ∧ u.seq = .idle ∧ u.par = s.par
      ∧ u.cfg = { p.header.cfg p.hasAlpha bs.length with
          inStart := p.header.pixelStart % 2 ^ s.par.inAW, inLen := bs.length % 2 ^ s.par.inAW } := by
  have hb : s.seq.busy = false := by rw [hs]; rfl
  obtain ⟨hin, hpal, -⟩ := hi.canonical
  obtain ⟨hinB, hpalB, -⟩ := hi.sizes
  obtain ⟨m, hload, hm⟩ := perform_loadIn bs 0 s hb (by omega) ⟨hin, hinB⟩
  obtain ⟨q, hloadPal, hq⟩ := perform_loadPal p.palette 0 { s with inMem := m } hb ⟨hpal, hpalB⟩
  have hregs := perform_registers { s with inMem := m, palMem := q } p.header p.hasAlpha bs.length hb
  have hloaded : Inv { s with inMem := m, palMem := q } := hi.mems m q hm hq s.inStale s.rdata s.draws
  have hpos := Nat.two_pow_pos s.par.inAW
  refine ⟨_, ?_, hloaded.of_cfg hb _ (Nat.mod_lt _ hpos) (Nat.mod_lt _ hpos), hs, rfl, rfl⟩
  rw [Plan.moves, List.append_assoc, List.append_assoc, perform_append _ _ _ _ hload, perform_append _ _ _ _ hloadPal,
    perform_append _ _ _ _ hregs, perform_singleton]
  rfl

/-- START accepts the configuration of a header that the host accepts exactly when the image fits `OUT_CAP` (R171). -/
theorem cfg_legal_iff {h : Header} {ha : Bool} {len : Nat} {par : Params} (hv : validate h = .ok h) :
    (h.cfg ha len).legal par = true ↔ h.width.toNat * h.height.toNat ≤ par.outCap :=
  ⟨Cfg.legal_pixels, validatedHeaderIsLegal h h par ha len hv⟩

/-- The host's work up to START: what is left is to wait for the run, which START has begun or refused, and to finish. -/
theorem decodeFile_starts {n : Nat} {bs : List Byte} {s : State} {p : Plan} (hi : Inv s) (hp : prepare bs = .ok p)
    (hlen : bs.length < 2 ^ s.par.inAW) (hn : s.mu ≤ n) :
    ∃ r, decodeFile n bs s = andThen (poll n r) (finish p) ∧ Inv r ∧
      (p.header.width.toNat * p.header.height.toNat ≤ s.par.outCap ∧ r.seq ≠ .idle ∧ r.err = .none
          ∧ r.total.toNat = p.header.width.toNat * p.header.height.toNat
        ∨ s.par.outCap < p.header.width.toNat * p.header.height.toNat ∧ r.seq = .err ∧ r.err = .eCfg) := by
  obtain ⟨t, hidle, hit, hts, htr, htpar⟩ := bringToIdle_idle hi hn
  obtain ⟨u, hmoves, hiu, hus, hupar, hucfg⟩ := perform_moves (p := p) hit hts (by rw [htpar]; exact hlen)
  have hstate : statusState t.rdata = 0 := by rw [statusState_eq htr, hts]; rfl
  have hlegal : u.cfg.legal u.par = true ↔ p.header.width.toNat * p.header.height.toNat ≤ s.par.outCap := by
    rw [hucfg, hupar, htpar]
    exact cfg_legal_iff (ha := p.hasAlpha) (len := bs.length) (prepare_ok bs p hp)
  have hrun : ∀ r, execStart u = .next r → decodeFile n bs s = andThen (poll n r) (finish p) := fun r hr => by
    simp only [decodeFile, hp, hidle, andThen_next, hstate, if_true, hmoves, hr]
  cases hl : u.cfg.legal u.par with
  | true =>
    refine ⟨u.started, hrun _ (execStart_of_legal hus hl), hiu.started hl,
      .inl ⟨hlegal.mp hl, started_seq_ne_idle u, rfl, ?_⟩⟩
    rw [started_total_toNat, hucfg]
    rfl
  | false =>
    have hstart := execStart_of_illegal hus hl
    exact ⟨u.raise .eCfg, hrun _ hstart, hiu.execStart hstart,
      .inr ⟨Nat.lt_of_not_le (mt hlegal.mpr (Bool.eq_false_iff.mp hl)), rfl, rfl⟩⟩

/-! ## The whole work -/

theorem decodeFile_rejected {n : Nat} {bs : List Byte} {s : State} {e : HostError} (hp : prepare bs = .error e) :
    decodeFile n bs s = .next (.error e, s) := by simp only [decodeFile, hp]

/-- What a run that has begun makes the host answer: the image, or the truncation or palette index error of R163 item 6. -/
theorem finish_ended {p : Plan} {r v : State} (hend : Ended r v) (herr : r.err = .none)
    (htot : r.total.toNat = p.header.width.toNat * p.header.height.toNat) :
    ∃ a t, finish p v = .next (a, t) ∧ t.seq = .idle
      ∧ (a = .error .truncatedStream ∨ a = .error .paletteIndexOutOfRange
        ∨ ∃ px : List Rgba, px.length = p.header.width.toNat * p.header.height.toNat
          ∧ a = .image { pixels := px, width := p.header.width, height := p.header.height, model := p.model }) := by
  rcases hend.ended with hs | hs
  · obtain ⟨w, hw⟩ := finish_done (p := p) hend.inv hs hend.seen (by rw [hend.total, htot])
    exact ⟨_, _, hw, rfl, .inr (.inr ⟨_, orient_length _ _ _ _, rfl⟩)⟩
  · refine ⟨_, _, finish_err hs hend.seen, rfl, ?_⟩
    have hnone : v.err ≠ .none := hend.inv.errIff.mpr hs
    have hcfg : v.err ≠ .eCfg := hend.cause (by simp [herr])
    cases hc : v.err with
    | none => exact absurd hc hnone
    | eCfg => exact absurd hc hcfg
    | eTrunc => exact .inl rfl
    | ePalIdx => exact .inr (.inl rfl)

/-- Settles O60: a file is rejected, or its run ends in DONE or ERR, or START refuses it because it does not fit `OUT_CAP`. -/
theorem hostReturnsTheImageOrTheError : Obligations.HostReturnsTheImageOrTheError := by
  refine ⟨fun n bs s e => decodeFile_rejected, ?_, ?_, ?_⟩
  · rintro p s w h hi hs hr rfl rfl htot
    obtain ⟨v, hv⟩ := finish_done (p := p) hi hs hr htot
    rw [htot] at hv
    refine ⟨outPixel s, _, fun k hk => ?_, hv, rfl⟩
    have hbyte : ∀ j, j < 4 → s.outMem.get? (4 * k + j) = some (outByte s (4 * k + j)) := fun j hj =>
      outByte_written hi hs (by omega)
    exact ⟨hbyte 0 (by decide), hbyte 1 (by decide), hbyte 2 (by decide), hbyte 3 (by decide)⟩
  · intro p s hs he hr
    rw [finish_err hs hr, reportOf_code he]
    rfl
  · rintro n bs s p w h hi hp rfl rfl hlen hmu hn
    obtain ⟨r, hdec, hir, ⟨hfits, hne, herr, htot⟩ | ⟨hbig, hs, herr⟩⟩ := decodeFile_starts hi hp hlen hmu
    · obtain ⟨v, hpoll, hend⟩ := poll_ends hir hne (n := n) ((mu_le_total r).trans (by rw [htot]; exact hn))
      obtain ⟨a, t, hfin, ht, ha⟩ := finish_ended (p := p) hend herr htot
      refine ⟨a, t, by rw [hdec, hpoll, andThen_next, hfin], ht, by tauto, ?_⟩
      rcases ha with rfl | rfl | ⟨px, -, rfl⟩ <;> simpa using hfits
    · have hfin := finish_err (p := p) (s := r.returns r.status.toNat) hs rfl
      rw [show (r.returns r.status.toNat).err = .eCfg from herr] at hfin
      refine ⟨.error .blockRefused, (r.returns r.status.toNat).cleared, ?_, rfl, .inr (.inr (.inl rfl)), iff_of_true rfl hbig⟩
      rw [hdec, poll_ended n r (.inr hs), andThen_next, hfin]
      rfl

end Sys2Proof.Machine.HostDuties
end
